-- ==== Sys2Proof/Word.lean ====
section
/-! DEFINITION. The word types of the guide-glove A64 core and their plainest facts (00_scope.md R9, R10, R14). -/

namespace Sys2Proof

/-- One byte of memory (20_memory.md R35). -/
abbrev Byte := BitVec 8

/-- A 64-bit register, address or program counter value (10_state.md R19, R23; 20_memory.md R35). -/
abbrev Word := BitVec 64

/-- A 32-bit instruction word (30_encoding.md R55). -/
abbrev InsnWord := BitVec 32

/-- A register field: a 5-bit unsigned index (30_encoding.md R88). -/
abbrev RegIdx := BitVec 5

/-- The index of the zero register (10_state.md R20). -/
abbrev zeroReg : RegIdx := 31#5

end Sys2Proof
end

