-- ==== Sys2Proof/Config.lean ====
section
/-! DEFINITION. What is fixed for a machine: the constants the spec fixes (00_scope.md R9, R10) and the type of the
parameters the host supplies (R11, R12; 60_exceptions.md R193). The parameters' values of a run stand in `State`
(notes/assumptions/1.md, 2.md), so every statement about every state holds for every value of them. -/

namespace Sys2Proof

namespace Config

/-- `MEM_SIZE`, 2 MiB (00_scope.md R10). -/
abbrev memSize : Nat := 0x200000

/-- `INSN_BYTES` (00_scope.md R10). -/
abbrev insnBytes : Nat := 4

/-- The number of general registers, X0 to X30 (00_scope.md R9). -/
abbrev numRegs : Nat := 31

/-- The default of the parameter `HALT_WORD` (00_scope.md R11, decision D2). -/
abbrev defaultHaltWord : InsnWord := 0x8A000000#32

end Config

/-- The addresses `base`, …, `base + size − 1`: one interval of `PERIPH_RANGE`. -/
structure AddrRange where
  base : Nat
  size : Nat
  deriving DecidableEq, Repr

/-- The open parameters of a run (00_scope.md R11, R12). `periphRange` is the set of addresses that lie in one of its
intervals; every set of 64-bit addresses can be written so (DESIGN CHOICE, notes/assumptions/2.md). -/
structure Params where
  haltWord : InsnWord
  periphRange : List AddrRange
  deriving DecidableEq, Repr

/-- The parameters where the host supplies none: the spec's default `HALT_WORD` (R11) and no peripheral (R12). -/
def Params.default : Params := { haltWord := Config.defaultHaltWord, periphRange := [] }

end Sys2Proof
end

