-- ==== Sys2Proof/Syntax.lean ====
section
/-! DEFINITION. The abstract syntax: one constructor of `Instr` for each of the 34 rows of spec/opcode_table.json,
with the payload fields of 30_encoding.md R56. -/

namespace Sys2Proof

/-- The size flag `sf`: `w` is sf = 0 (32-bit, W view), `x` is sf = 1 (64-bit, X view) (10_state.md R19). -/
inductive OpSize where
  | w
  | x
  deriving DecidableEq, Repr

/-- `W(sf)`, the operand width in bits (00_scope.md R15). -/
abbrev OpSize.bits : OpSize → Nat
  | .w => 32
  | .x => 64

/-- The transfer size in bytes of a load or store (44_load_store.md, head of the file; 20_memory.md R48). -/
abbrev OpSize.bytes : OpSize → Nat
  | .w => 4
  | .x => 8

/-- The shift types of the Shift Engine (40_shift_engine.md R97). -/
inductive ShiftType where
  | lsl
  | lsr
  | asr
  | ror
  deriving DecidableEq, Repr

/-- The seven condition codes the source defines (30_encoding.md R79). -/
inductive Cond where
  | eq
  | ne
  | ge
  | lt
  | gt
  | le
  | al
  deriving DecidableEq, Repr

/-- The discriminant of a decoded value (30_encoding.md R56). -/
inductive InstructionType where
  | dpImm
  | dpReg
  | sdt
  | ll
  | branch
  | halt
  | unknown
  deriving DecidableEq, Repr

/-- The instructions. Field names are the spec's (30_encoding.md R56); `sz` is `sf`. -/
inductive Instr where
  -- DP_IMM.ARITH (R61)
  | addImm (sz : OpSize) (sh : Bool) (imm12 : BitVec 12) (rn rd : RegIdx)
  | addsImm (sz : OpSize) (sh : Bool) (imm12 : BitVec 12) (rn rd : RegIdx)
  | subImm (sz : OpSize) (sh : Bool) (imm12 : BitVec 12) (rn rd : RegIdx)
  | subsImm (sz : OpSize) (sh : Bool) (imm12 : BitVec 12) (rn rd : RegIdx)
  -- DP_IMM.WIDE (R62)
  | movn (sz : OpSize) (hw : BitVec 2) (imm16 : BitVec 16) (rd : RegIdx)
  | movz (sz : OpSize) (hw : BitVec 2) (imm16 : BitVec 16) (rd : RegIdx)
  | movk (sz : OpSize) (hw : BitVec 2) (imm16 : BitVec 16) (rd : RegIdx)
  -- DP_REG.ARITH (R65)
  | addReg (sz : OpSize) (shift : ShiftType) (rm : RegIdx) (imm6 : BitVec 6) (rn rd : RegIdx)
  | addsReg (sz : OpSize) (shift : ShiftType) (rm : RegIdx) (imm6 : BitVec 6) (rn rd : RegIdx)
  | subReg (sz : OpSize) (shift : ShiftType) (rm : RegIdx) (imm6 : BitVec 6) (rn rd : RegIdx)
  | subsReg (sz : OpSize) (shift : ShiftType) (rm : RegIdx) (imm6 : BitVec 6) (rn rd : RegIdx)
  -- DP_REG.LOGIC (R66)
  | andReg (sz : OpSize) (shift : ShiftType) (rm : RegIdx) (imm6 : BitVec 6) (rn rd : RegIdx)
  | bicReg (sz : OpSize) (shift : ShiftType) (rm : RegIdx) (imm6 : BitVec 6) (rn rd : RegIdx)
  | orrReg (sz : OpSize) (shift : ShiftType) (rm : RegIdx) (imm6 : BitVec 6) (rn rd : RegIdx)
  | ornReg (sz : OpSize) (shift : ShiftType) (rm : RegIdx) (imm6 : BitVec 6) (rn rd : RegIdx)
  | eorReg (sz : OpSize) (shift : ShiftType) (rm : RegIdx) (imm6 : BitVec 6) (rn rd : RegIdx)
  | eonReg (sz : OpSize) (shift : ShiftType) (rm : RegIdx) (imm6 : BitVec 6) (rn rd : RegIdx)
  | andsReg (sz : OpSize) (shift : ShiftType) (rm : RegIdx) (imm6 : BitVec 6) (rn rd : RegIdx)
  | bicsReg (sz : OpSize) (shift : ShiftType) (rm : RegIdx) (imm6 : BitVec 6) (rn rd : RegIdx)
  -- DP_REG.MUL (R67)
  | madd (sz : OpSize) (rm ra rn rd : RegIdx)
  | msub (sz : OpSize) (rm ra rn rd : RegIdx)
  -- SDT (R70 to R73)
  | strUnsigned (sz : OpSize) (imm12 : BitVec 12) (rn rt : RegIdx)
  | ldrUnsigned (sz : OpSize) (imm12 : BitVec 12) (rn rt : RegIdx)
  | strPre (sz : OpSize) (simm9 : BitVec 9) (rn rt : RegIdx)
  | ldrPre (sz : OpSize) (simm9 : BitVec 9) (rn rt : RegIdx)
  | strPost (sz : OpSize) (simm9 : BitVec 9) (rn rt : RegIdx)
  | ldrPost (sz : OpSize) (simm9 : BitVec 9) (rn rt : RegIdx)
  | strReg (sz : OpSize) (rm rn rt : RegIdx)
  | ldrReg (sz : OpSize) (rm rn rt : RegIdx)
  -- LL (R75)
  | ldrLit (sz : OpSize) (simm19 : BitVec 19) (rt : RegIdx)
  -- BRANCH (R77, R78)
  | b (simm26 : BitVec 26)
  | br (rn : RegIdx)
  | bCond (simm19 : BitVec 19) (cond : Cond)
  -- HALT (R58)
  | halt
  deriving DecidableEq, Repr

end Sys2Proof
end

