-- ==== Sys2Proof/Machine/State.lean ====
section
/-! DEFINITION. The machine's state as plain data: every piece of state of 10_state.md and 20_memory.md, the two open
parameters (00_scope.md R11, R12), the reasons a step can stop without a next state, and the state after reset
(10_state.md R34; 70_reset_and_hazards.md R194). -/

namespace Sys2Proof.Machine

/-- The condition flags, PSTATE (10_state.md R25). -/
structure Flags where
  n : Bool
  z : Bool
  c : Bool
  v : Bool
  deriving DecidableEq, Repr

/-- The byte memory `M[0] … M[MEM_SIZE−1]` (20_memory.md R35) as its cells: addresses strictly rising, no cell equal to
what an unlisted address reads as (`Memory.wf`, Machine/Ops.lean). -/
structure Memory where
  cells : List Host.Cell
  deriving DecidableEq, Repr

/-- A peripheral store event: the start address, the store's size (4 or 8 bytes) and the stored value, which for a
4-byte store lies in bits 31..0 (10_state.md R27; 20_memory.md R47). -/
structure PeriphEvent where
  addr : Word
  size : OpSize
  value : Word
  deriving DecidableEq, Repr

/-- An entry of `diag_log` (10_state.md R28; 60_exceptions.md R179). An access size is an `OpSize`: 4 or 8 bytes. -/
inductive Diag where
  | oobLoad (addr : Word) (size : OpSize)
  | oobStore (addr : Word) (size : OpSize)
  | pcOob (pc : Word)
  | pcMisaligned (pc : Word)
  | undefinedInsn (pc : Word) (word : InsnWord)
  | resolverInconsistent (pc : Word) (word : InsnWord)
  | imageTruncated (length : Nat)
  deriving DecidableEq, Repr

/-- `stop`: why the loop ended, or `none` while it runs (10_state.md R29). -/
inductive StopReason where
  | none
  | halt
  | undefinedInsn
  | pcOob
  | pcMisaligned
  | stuckPc
  deriving DecidableEq, Repr

/-- The machine. Register index 31 has no storage (10_state.md R20); `pcWritten` is the transient second result of
`execute` (10_state.md R26, R34); `params` are the parameters of the run, which no step changes. -/
structure State where
  regs : Vector Word 31
  pc : Word
  flags : Flags
  mem : Memory
  pcWritten : Bool
  periphEvents : List PeriphEvent
  diagLog : List Diag
  stop : StopReason
  params : Params
  deriving DecidableEq, Repr

/-- Faults: none. Every abnormal event of this hardware is a diagnostic with continued execution or a recorded stop
(00_scope.md R16; 60_exceptions.md R178, R179), both of which are next states. No constructor, so no model of a run can
end in a fault: safe (notes/assumptions/11.md). -/
inductive Fault where
  deriving DecidableEq, Repr

/-- Refusals. -/
inductive Refusal where
  /-- Raised by `exec`'s arm of an instruction that has no meaning yet; no arm raises it now. Safe: the run stops. -/
  | notModelled (mnemonic : String)
  deriving DecidableEq, Repr

/-- The flags at reset: N = C = V = false, Z = true (10_state.md R25, R34). -/
def Flags.reset : Flags := { n := false, z := true, c := false, v := false }

/-- The machine after reset with the empty image and the default parameters (10_state.md R34;
70_reset_and_hazards.md R194, R195). A run with an image or with other parameters starts from `State.boot`
(Machine/Boot.lean). -/
def State.reset : State where
  regs := Vector.replicate 31 0#64
  pc := 0#64
  flags := Flags.reset
  mem := { cells := [] }
  pcWritten := false
  periphEvents := []
  diagLog := []
  stop := .none
  params := Params.default

end Sys2Proof.Machine
end

