-- ==== Sys2Proof/Machine/Flags.lean ====
section
/-! DEFINITION. Every flag computation and the condition evaluation (42_dp_immediate.md R114; 43_dp_register.md R132;
45_branch.md R161). -/

namespace Sys2Proof.Machine

/-- The flags of `r = a + b`, from the result and the operands' top bits (42_dp_immediate.md R114). -/
def addFlags {w : Nat} (a b r : BitVec w) : Flags where
  n := r.msb
  z := r == 0#w
  c := r.ult a
  v := a.msb == b.msb && r.msb != a.msb

/-- The flags of `r = a − b`; C set means no borrow (42_dp_immediate.md R114). -/
def subFlags {w : Nat} (a b r : BitVec w) : Flags where
  n := r.msb
  z := r == 0#w
  c := b.ule a
  v := a.msb != b.msb && r.msb != a.msb

/-- `AddSub(a, b, sub, W)`: the result and the four flags (42_dp_immediate.md R114). -/
def addSub {w : Nat} (a b : BitVec w) (sub : Bool) : BitVec w × Flags :=
  if sub then (a - b, subFlags a b (a - b)) else (a + b, addFlags a b (a + b))

/-- The flags a logical operation writes: C and V are 0 (43_dp_register.md R132; notes/assumptions/16.md). -/
def logicFlags {w : Nat} (r : BitVec w) : Flags where
  n := r.msb
  z := r == 0#w
  c := false
  v := false

/-- `cond_holds(c)` (45_branch.md R161). -/
def condHolds (c : Cond) (f : Flags) : Bool :=
  match c with
  | .eq => f.z
  | .ne => !f.z
  | .ge => f.n == f.v
  | .lt => f.n != f.v
  | .gt => !f.z && f.n == f.v
  | .le => !(!f.z && f.n == f.v)
  | .al => true

end Sys2Proof.Machine
end

