-- ==== Sys2Proof/WellFormed.lean ====
section
/-! DEFINITION. The side conditions of the opcode table's rows (spec/opcode_table.json, "constraints"). The one
condition that depends on the parameter `HALT_WORD` is `Instr.encodable`, in Decode.lean, beside the encoder. -/

namespace Sys2Proof

/-- A wide move of 32 bits has hw < 2 (30_encoding.md R62). -/
def wideOk (sz : OpSize) (hw : BitVec 2) : Bool :=
  sz == .x || hw.toNat < 2

/-- A shift by `imm6` of a 32-bit operand has imm6 < 32 (30_encoding.md R65, R66). -/
def shiftAmountOk (sz : OpSize) (imm6 : BitVec 6) : Bool :=
  sz == .x || imm6.toNat < 32

/-- The arithmetic layout has no ROR (30_encoding.md R65). -/
def arithShiftOk (shift : ShiftType) : Bool :=
  shift != .ror

/-- The side conditions of an instruction's row. -/
def Instr.wellFormed : Instr → Bool
  | .addImm .. | .addsImm .. | .subImm .. | .subsImm .. => true
  | .movn sz hw _ _ | .movz sz hw _ _ | .movk sz hw _ _ => wideOk sz hw
  | .addReg sz shift _ imm6 _ _ | .addsReg sz shift _ imm6 _ _
  | .subReg sz shift _ imm6 _ _ | .subsReg sz shift _ imm6 _ _ => arithShiftOk shift && shiftAmountOk sz imm6
  | .andReg sz _ _ imm6 _ _ | .bicReg sz _ _ imm6 _ _ | .orrReg sz _ _ imm6 _ _ | .ornReg sz _ _ imm6 _ _
  | .eorReg sz _ _ imm6 _ _ | .eonReg sz _ _ imm6 _ _ | .andsReg sz _ _ imm6 _ _
  | .bicsReg sz _ _ imm6 _ _ => shiftAmountOk sz imm6
  | .madd .. | .msub .. => true
  | .strUnsigned .. | .ldrUnsigned .. | .strPre .. | .ldrPre .. => true
  | .strPost .. | .ldrPost .. | .strReg .. | .ldrReg .. | .ldrLit .. => true
  | .b .. | .br .. | .bCond .. | .halt => true

end Sys2Proof
end

