-- ==== Sys2Proof/Decode.lean ====
section
/-! DEFINITION. The Decoder (30_encoding.md R55 to R91), the encoder written from the same layouts (R60 to R79, R92),
and the opcode table's masks and matches. The parameter `HALT_WORD` is an argument of both (00_scope.md R11).
The bit positions are the spec's, which marks most of them as A64's (notes/assumptions/10.md). -/

namespace Sys2Proof

/-! ## Fields -/

/-- `w[lo+len−1 : lo]` (00_scope.md R14). -/
def field (w : InsnWord) (lo len : Nat) : BitVec len :=
  w.extractLsb' lo len

/-- `w[i]` (00_scope.md R14). -/
def bitAt (w : InsnWord) (i : Nat) : Bool :=
  w.getLsbD i

/-- The size flag: 1 selects 64-bit, 0 selects 32-bit (30_encoding.md R60, R64, R70, R75). -/
def sizeOfBit (b : Bool) : OpSize :=
  if b then .x else .w

/-- The bit of a size flag. -/
def bitOfSize : OpSize → BitVec 1
  | .w => 0b0#1
  | .x => 0b1#1

/-- The shift field: 00 LSL, 01 LSR, 10 ASR, 11 ROR (30_encoding.md R87). -/
def shiftOfBits (f : BitVec 2) : ShiftType :=
  if f = 0b00#2 then .lsl
  else if f = 0b01#2 then .lsr
  else if f = 0b10#2 then .asr
  else .ror

/-- The number of a shift type (30_encoding.md R87). -/
def bitsOfShift : ShiftType → BitVec 2
  | .lsl => 0b00#2
  | .lsr => 0b01#2
  | .asr => 0b10#2
  | .ror => 0b11#2

/-- The seven codes of `CONDS`; the other nine name no condition (30_encoding.md R79). -/
def condOfBits (f : BitVec 4) : Option Cond :=
  if f = 0b0000#4 then some .eq
  else if f = 0b0001#4 then some .ne
  else if f = 0b1010#4 then some .ge
  else if f = 0b1011#4 then some .lt
  else if f = 0b1100#4 then some .gt
  else if f = 0b1101#4 then some .le
  else if f = 0b1110#4 then some .al
  else none

/-- The number of a condition (30_encoding.md R79). -/
def bitsOfCond : Cond → BitVec 4
  | .eq => 0b0000#4
  | .ne => 0b0001#4
  | .ge => 0b1010#4
  | .lt => 0b1011#4
  | .gt => 0b1100#4
  | .le => 0b1101#4
  | .al => 0b1110#4

/-! ## The decoder -/

/-- What `decode` answers: an instruction of the table, or `UNKNOWN(w)` (30_encoding.md R56, R57). -/
inductive Decoded where
  | instr (i : Instr)
  | unknown (w : InsnWord)
  deriving DecidableEq, Repr

/-- ADD, ADDS, SUB, SUBS (immediate) by opc (30_encoding.md R61). -/
def arithImmOfOpc (opc : BitVec 2) (sz : OpSize) (sh : Bool) (imm12 : BitVec 12) (rn rd : RegIdx) : Instr :=
  if opc = 0b00#2 then .addImm sz sh imm12 rn rd
  else if opc = 0b01#2 then .addsImm sz sh imm12 rn rd
  else if opc = 0b10#2 then .subImm sz sh imm12 rn rd
  else .subsImm sz sh imm12 rn rd

/-- MOVN, MOVZ, MOVK by opc; 01 is excluded before the call (30_encoding.md R62). -/
def wideOfOpc (opc : BitVec 2) (sz : OpSize) (hw : BitVec 2) (imm16 : BitVec 16) (rd : RegIdx) : Instr :=
  if opc = 0b00#2 then .movn sz hw imm16 rd
  else if opc = 0b10#2 then .movz sz hw imm16 rd
  else .movk sz hw imm16 rd

/-- ADD, ADDS, SUB, SUBS (shifted register) by opc (30_encoding.md R65). -/
def arithRegOfOpc (opc : BitVec 2) (sz : OpSize) (shift : ShiftType) (rm : RegIdx) (imm6 : BitVec 6)
    (rn rd : RegIdx) : Instr :=
  if opc = 0b00#2 then .addReg sz shift rm imm6 rn rd
  else if opc = 0b01#2 then .addsReg sz shift rm imm6 rn rd
  else if opc = 0b10#2 then .subReg sz shift rm imm6 rn rd
  else .subsReg sz shift rm imm6 rn rd

/-- The eight logical operations by (opc, N) (30_encoding.md R66). -/
def logicOfOpc (opc : BitVec 2) (n : Bool) (sz : OpSize) (shift : ShiftType) (rm : RegIdx) (imm6 : BitVec 6)
    (rn rd : RegIdx) : Instr :=
  if opc = 0b00#2 then
    if n then .bicReg sz shift rm imm6 rn rd else .andReg sz shift rm imm6 rn rd
  else if opc = 0b01#2 then
    if n then .ornReg sz shift rm imm6 rn rd else .orrReg sz shift rm imm6 rn rd
  else if opc = 0b10#2 then
    if n then .eonReg sz shift rm imm6 rn rd else .eorReg sz shift rm imm6 rn rd
  else
    if n then .bicsReg sz shift rm imm6 rn rd else .andsReg sz shift rm imm6 rn rd

/-- DP_IMM (30_encoding.md R60 to R63). -/
def decodeDpImm (w : InsnWord) : Decoded :=
  let sz := sizeOfBit (bitAt w 31)
  let opc := field w 29 2
  let opi := field w 23 3
  let rd := field w 0 5
  if opi = 0b010#3 then
    .instr (arithImmOfOpc opc sz (bitAt w 22) (field w 10 12) (field w 5 5) rd)
  else if opi = 0b101#3 then
    if opc = 0b01#2 then .unknown w
    else if sz = .w ∧ bitAt w 22 = true then .unknown w
    else .instr (wideOfOpc opc sz (field w 21 2) (field w 5 16) rd)
  else .unknown w

/-- DP_REG (30_encoding.md R64 to R68). The fields `opr[3]`, `opr[2:1]`, `opr[0]` are w[24], w[23:22], w[21]. -/
def decodeDpReg (w : InsnWord) : Decoded :=
  let sz := sizeOfBit (bitAt w 31)
  let opc := field w 29 2
  let m := bitAt w 28
  let opr := field w 21 4
  let shiftBits := field w 22 2
  let rm := field w 16 5
  let imm6 := field w 10 6
  let rn := field w 5 5
  let rd := field w 0 5
  if m = false ∧ bitAt w 24 = true ∧ bitAt w 21 = false then
    if shiftBits = 0b11#2 then .unknown w
    else if sz = .w ∧ bitAt w 15 = true then .unknown w
    else .instr (arithRegOfOpc opc sz (shiftOfBits shiftBits) rm imm6 rn rd)
  else if m = false ∧ bitAt w 24 = false then
    if sz = .w ∧ bitAt w 15 = true then .unknown w
    else .instr (logicOfOpc opc (bitAt w 21) sz (shiftOfBits shiftBits) rm imm6 rn rd)
  else if m = true ∧ opr = 0b1000#4 ∧ opc = 0b00#2 then
    if bitAt w 15 then .instr (.msub sz rm (field w 10 5) rn rd)
    else .instr (.madd sz rm (field w 10 5) rn rd)
  else .unknown w

/-- SDT, w[31] = 1 (30_encoding.md R70 to R74). -/
def decodeSdt (w : InsnWord) : Decoded :=
  let sz := sizeOfBit (bitAt w 30)
  let load := bitAt w 22
  let rn := field w 5 5
  let rt := field w 0 5
  if field w 25 5 ≠ 0b11100#5 ∨ bitAt w 23 = true then .unknown w
  else if bitAt w 24 then
    if load then .instr (.ldrUnsigned sz (field w 10 12) rn rt)
    else .instr (.strUnsigned sz (field w 10 12) rn rt)
  else if bitAt w 21 then
    if field w 10 6 ≠ 0b011010#6 then .unknown w
    else if load then .instr (.ldrReg sz (field w 16 5) rn rt)
    else .instr (.strReg sz (field w 16 5) rn rt)
  else if bitAt w 10 = false then .unknown w
  else if bitAt w 11 then
    if load then .instr (.ldrPre sz (field w 12 9) rn rt)
    else .instr (.strPre sz (field w 12 9) rn rt)
  else
    if load then .instr (.ldrPost sz (field w 12 9) rn rt)
    else .instr (.strPost sz (field w 12 9) rn rt)

/-- LL, w[31] = 0 (30_encoding.md R75). -/
def decodeLl (w : InsnWord) : Decoded :=
  if field w 24 6 ≠ 0b011000#6 then .unknown w
  else .instr (.ldrLit (sizeOfBit (bitAt w 30)) (field w 5 19) (field w 0 5))

/-- SDT and LL, told apart by bit 31 (30_encoding.md R69). -/
def decodeLdst (w : InsnWord) : Decoded :=
  if bitAt w 31 then decodeSdt w else decodeLl w

/-- BRANCH, by w[31:30] (30_encoding.md R76 to R79). -/
def decodeBranch (w : InsnWord) : Decoded :=
  let kind := field w 30 2
  if kind = 0b00#2 then
    if field w 26 4 ≠ 0b0101#4 then .unknown w
    else .instr (.b (field w 0 26))
  else if kind = 0b11#2 then
    if w &&& 0xFFFFFC1F#32 ≠ 0xD61F0000#32 then .unknown w
    else .instr (.br (field w 5 5))
  else if kind = 0b01#2 then
    if field w 24 8 ≠ 0b01010100#8 ∨ bitAt w 4 = true then .unknown w
    else
      match condOfBits (field w 0 4) with
      | some c => .instr (.bCond (field w 5 19) c)
      | none => .unknown w
  else .unknown w

/-- `decode` (30_encoding.md R57 to R59): the HALT sentinel first, then the family by `op0 = w[28:25]`
(`100x`, `x101`, `x1x0`, `101x`), every other word UNKNOWN (R89). -/
def decode (haltWord w : InsnWord) : Decoded :=
  let op0 := field w 25 4
  if w = haltWord then .instr .halt
  else if op0 &&& 0b1110#4 = 0b1000#4 then decodeDpImm w
  else if op0 &&& 0b0111#4 = 0b0101#4 then decodeDpReg w
  else if op0 &&& 0b0101#4 = 0b0100#4 then decodeLdst w
  else if op0 &&& 0b1110#4 = 0b1010#4 then decodeBranch w
  else .unknown w

/-- The family of an instruction (30_encoding.md R56). -/
def Instr.family : Instr → InstructionType
  | .addImm .. | .addsImm .. | .subImm .. | .subsImm .. | .movn .. | .movz .. | .movk .. => .dpImm
  | .addReg .. | .addsReg .. | .subReg .. | .subsReg .. => .dpReg
  | .andReg .. | .bicReg .. | .orrReg .. | .ornReg .. => .dpReg
  | .eorReg .. | .eonReg .. | .andsReg .. | .bicsReg .. => .dpReg
  | .madd .. | .msub .. => .dpReg
  | .strUnsigned .. | .ldrUnsigned .. | .strPre .. | .ldrPre .. => .sdt
  | .strPost .. | .ldrPost .. | .strReg .. | .ldrReg .. => .sdt
  | .ldrLit .. => .ll
  | .b .. | .br .. | .bCond .. => .branch
  | .halt => .halt

/-- The tag of a decoded value (30_encoding.md R56). -/
def Decoded.tag : Decoded → InstructionType
  | .instr i => i.family
  | .unknown _ => .unknown

/-! ## Bytes -/

/-- Why a list of bytes decodes to no instruction. -/
inductive DecodeReject where
  /-- Fewer than the four bytes of an instruction (30_encoding.md R55). -/
  | truncated
  /-- The word is UNKNOWN (30_encoding.md R57, R89). -/
  | unknown (w : InsnWord)
  deriving DecidableEq, Repr

/-- The little-endian word of four bytes, the first at the lowest address (20_memory.md R38). -/
def wordOfBytes (b0 b1 b2 b3 : Byte) : InsnWord :=
  b3 ++ b2 ++ b1 ++ b0

/-- The four bytes of a word, the first at the lowest address (20_memory.md R38). -/
def bytesOfWord (w : InsnWord) : List Byte :=
  [field w 0 8, field w 8 8, field w 16 8, field w 24 8]

/-- Decode the instruction at the head of a byte list and give the rest of the list back. -/
def decodeBytes (haltWord : InsnWord) : List Byte → Except DecodeReject (Instr × List Byte)
  | b0 :: b1 :: b2 :: b3 :: rest =>
    match decode haltWord (wordOfBytes b0 b1 b2 b3) with
    | .instr i => .ok (i, rest)
    | .unknown w => .error (.unknown w)
  | _ => .error .truncated

/-! ## The encoder -/

/-- DP_IMM.ARITH (30_encoding.md R61). -/
def encodeArithImm (opc : BitVec 2) (sz : OpSize) (sh : Bool) (imm12 : BitVec 12) (rn rd : RegIdx) : InsnWord :=
  bitOfSize sz ++ opc ++ 0b100010#6 ++ BitVec.ofBool sh ++ imm12 ++ rn ++ rd

/-- DP_IMM.WIDE (30_encoding.md R62). -/
def encodeWide (opc : BitVec 2) (sz : OpSize) (hw : BitVec 2) (imm16 : BitVec 16) (rd : RegIdx) : InsnWord :=
  bitOfSize sz ++ opc ++ 0b100101#6 ++ hw ++ imm16 ++ rd

/-- DP_REG.ARITH (30_encoding.md R65). -/
def encodeArithReg (opc : BitVec 2) (sz : OpSize) (shift : ShiftType) (rm : RegIdx) (imm6 : BitVec 6)
    (rn rd : RegIdx) : InsnWord :=
  bitOfSize sz ++ opc ++ 0b01011#5 ++ bitsOfShift shift ++ 0b0#1 ++ rm ++ imm6 ++ rn ++ rd

/-- DP_REG.LOGIC (30_encoding.md R66). -/
def encodeLogic (opc : BitVec 2) (n : BitVec 1) (sz : OpSize) (shift : ShiftType) (rm : RegIdx) (imm6 : BitVec 6)
    (rn rd : RegIdx) : InsnWord :=
  bitOfSize sz ++ opc ++ 0b01010#5 ++ bitsOfShift shift ++ n ++ rm ++ imm6 ++ rn ++ rd

/-- DP_REG.MUL (30_encoding.md R67). -/
def encodeMul (x : BitVec 1) (sz : OpSize) (rm ra rn rd : RegIdx) : InsnWord :=
  bitOfSize sz ++ 0b00#2 ++ 0b11011000#8 ++ rm ++ x ++ ra ++ rn ++ rd

/-- SDT unsigned offset (30_encoding.md R70, R71). -/
def encodeUnsigned (l : BitVec 1) (sz : OpSize) (imm12 : BitVec 12) (rn rt : RegIdx) : InsnWord :=
  0b1#1 ++ bitOfSize sz ++ 0b11100#5 ++ 0b1#1 ++ 0b0#1 ++ l ++ imm12 ++ rn ++ rt

/-- SDT pre- and post-indexed: I = 1 and I = 0 (30_encoding.md R70, R73). -/
def encodeIndexed (l i : BitVec 1) (sz : OpSize) (simm9 : BitVec 9) (rn rt : RegIdx) : InsnWord :=
  0b1#1 ++ bitOfSize sz ++ 0b11100#5 ++ 0b0#1 ++ 0b0#1 ++ l ++ 0b0#1 ++ simm9 ++ i ++ 0b1#1 ++ rn ++ rt

/-- SDT register offset (30_encoding.md R70, R72). -/
def encodeRegOffset (l : BitVec 1) (sz : OpSize) (rm rn rt : RegIdx) : InsnWord :=
  0b1#1 ++ bitOfSize sz ++ 0b11100#5 ++ 0b0#1 ++ 0b0#1 ++ l ++ 0b1#1 ++ rm ++ 0b011010#6 ++ rn ++ rt

/-- LL (30_encoding.md R75). -/
def encodeLl (sz : OpSize) (simm19 : BitVec 19) (rt : RegIdx) : InsnWord :=
  0b0#1 ++ bitOfSize sz ++ 0b011000#6 ++ simm19 ++ rt

/-- BRANCH.B (30_encoding.md R77). -/
def encodeB (simm26 : BitVec 26) : InsnWord :=
  0b000101#6 ++ simm26

/-- BRANCH.BR (30_encoding.md R77). -/
def encodeBr (rn : RegIdx) : InsnWord :=
  0b1101011000011111000000#22 ++ rn ++ 0b00000#5

/-- BRANCH.BCOND (30_encoding.md R78, R79). -/
def encodeBCond (simm19 : BitVec 19) (cond : Cond) : InsnWord :=
  0b01010100#8 ++ simm19 ++ 0b0#1 ++ bitsOfCond cond

/-- The word of an instruction: the fields placed at the bit positions of its layout (30_encoding.md R92). -/
def encode (haltWord : InsnWord) : Instr → InsnWord
  | .addImm sz sh imm12 rn rd => encodeArithImm 0b00#2 sz sh imm12 rn rd
  | .addsImm sz sh imm12 rn rd => encodeArithImm 0b01#2 sz sh imm12 rn rd
  | .subImm sz sh imm12 rn rd => encodeArithImm 0b10#2 sz sh imm12 rn rd
  | .subsImm sz sh imm12 rn rd => encodeArithImm 0b11#2 sz sh imm12 rn rd
  | .movn sz hw imm16 rd => encodeWide 0b00#2 sz hw imm16 rd
  | .movz sz hw imm16 rd => encodeWide 0b10#2 sz hw imm16 rd
  | .movk sz hw imm16 rd => encodeWide 0b11#2 sz hw imm16 rd
  | .addReg sz shift rm imm6 rn rd => encodeArithReg 0b00#2 sz shift rm imm6 rn rd
  | .addsReg sz shift rm imm6 rn rd => encodeArithReg 0b01#2 sz shift rm imm6 rn rd
  | .subReg sz shift rm imm6 rn rd => encodeArithReg 0b10#2 sz shift rm imm6 rn rd
  | .subsReg sz shift rm imm6 rn rd => encodeArithReg 0b11#2 sz shift rm imm6 rn rd
  | .andReg sz shift rm imm6 rn rd => encodeLogic 0b00#2 0b0#1 sz shift rm imm6 rn rd
  | .bicReg sz shift rm imm6 rn rd => encodeLogic 0b00#2 0b1#1 sz shift rm imm6 rn rd
  | .orrReg sz shift rm imm6 rn rd => encodeLogic 0b01#2 0b0#1 sz shift rm imm6 rn rd
  | .ornReg sz shift rm imm6 rn rd => encodeLogic 0b01#2 0b1#1 sz shift rm imm6 rn rd
  | .eorReg sz shift rm imm6 rn rd => encodeLogic 0b10#2 0b0#1 sz shift rm imm6 rn rd
  | .eonReg sz shift rm imm6 rn rd => encodeLogic 0b10#2 0b1#1 sz shift rm imm6 rn rd
  | .andsReg sz shift rm imm6 rn rd => encodeLogic 0b11#2 0b0#1 sz shift rm imm6 rn rd
  | .bicsReg sz shift rm imm6 rn rd => encodeLogic 0b11#2 0b1#1 sz shift rm imm6 rn rd
  | .madd sz rm ra rn rd => encodeMul 0b0#1 sz rm ra rn rd
  | .msub sz rm ra rn rd => encodeMul 0b1#1 sz rm ra rn rd
  | .strUnsigned sz imm12 rn rt => encodeUnsigned 0b0#1 sz imm12 rn rt
  | .ldrUnsigned sz imm12 rn rt => encodeUnsigned 0b1#1 sz imm12 rn rt
  | .strPre sz simm9 rn rt => encodeIndexed 0b0#1 0b1#1 sz simm9 rn rt
  | .ldrPre sz simm9 rn rt => encodeIndexed 0b1#1 0b1#1 sz simm9 rn rt
  | .strPost sz simm9 rn rt => encodeIndexed 0b0#1 0b0#1 sz simm9 rn rt
  | .ldrPost sz simm9 rn rt => encodeIndexed 0b1#1 0b0#1 sz simm9 rn rt
  | .strReg sz rm rn rt => encodeRegOffset 0b0#1 sz rm rn rt
  | .ldrReg sz rm rn rt => encodeRegOffset 0b1#1 sz rm rn rt
  | .ldrLit sz simm19 rt => encodeLl sz simm19 rt
  | .b simm26 => encodeB simm26
  | .br rn => encodeBr rn
  | .bCond simm19 cond => encodeBCond simm19 cond
  | .halt => haltWord

/-- An instruction that a word stands for: its row's side conditions hold, and its word is not the HALT sentinel,
which decodes as HALT first (30_encoding.md R58; spec/opcode_table.json, the constraint of AND). -/
def Instr.encodable (haltWord : InsnWord) (i : Instr) : Bool :=
  i.wellFormed && (i == .halt || encode haltWord i != haltWord)

/-! ## The opcode table -/

/-- The `mask` of an instruction's row of spec/opcode_table.json. -/
def Instr.tableMask : Instr → InsnWord
  | .addImm .. | .addsImm .. | .subImm .. | .subsImm .. | .movn .. | .movz .. | .movk .. => 0x7F800000#32
  | .addReg .. | .addsReg .. | .subReg .. | .subsReg .. => 0x7F200000#32
  | .andReg .. | .bicReg .. | .orrReg .. | .ornReg .. => 0x7F200000#32
  | .eorReg .. | .eonReg .. | .andsReg .. | .bicsReg .. => 0x7F200000#32
  | .madd .. | .msub .. => 0x7FE08000#32
  | .strUnsigned .. | .ldrUnsigned .. => 0xBFC00000#32
  | .strPre .. | .ldrPre .. | .strPost .. | .ldrPost .. => 0xBFE00C00#32
  | .strReg .. | .ldrReg .. => 0xBFE0FC00#32
  | .ldrLit .. => 0xBF000000#32
  | .b .. => 0xFC000000#32
  | .br .. => 0xFFFFFC1F#32
  | .bCond .. => 0xFF000010#32
  | .halt => 0xFFFFFFFF#32

/-- The `match` of an instruction's row of spec/opcode_table.json; HALT's is the parameter `HALT_WORD`. -/
def Instr.tableMatch (haltWord : InsnWord) : Instr → InsnWord
  | .addImm .. => 0x11000000#32
  | .addsImm .. => 0x31000000#32
  | .subImm .. => 0x51000000#32
  | .subsImm .. => 0x71000000#32
  | .movn .. => 0x12800000#32
  | .movz .. => 0x52800000#32
  | .movk .. => 0x72800000#32
  | .addReg .. => 0x0B000000#32
  | .addsReg .. => 0x2B000000#32
  | .subReg .. => 0x4B000000#32
  | .subsReg .. => 0x6B000000#32
  | .andReg .. => 0x0A000000#32
  | .bicReg .. => 0x0A200000#32
  | .orrReg .. => 0x2A000000#32
  | .ornReg .. => 0x2A200000#32
  | .eorReg .. => 0x4A000000#32
  | .eonReg .. => 0x4A200000#32
  | .andsReg .. => 0x6A000000#32
  | .bicsReg .. => 0x6A200000#32
  | .madd .. => 0x1B000000#32
  | .msub .. => 0x1B008000#32
  | .strUnsigned .. => 0xB9000000#32
  | .ldrUnsigned .. => 0xB9400000#32
  | .strPre .. => 0xB8000C00#32
  | .ldrPre .. => 0xB8400C00#32
  | .strPost .. => 0xB8000400#32
  | .ldrPost .. => 0xB8400400#32
  | .strReg .. => 0xB8206800#32
  | .ldrReg .. => 0xB8606800#32
  | .ldrLit .. => 0x18000000#32
  | .b .. => 0x14000000#32
  | .br .. => 0xD61F0000#32
  | .bCond .. => 0x54000000#32
  | .halt => haltWord

/-! ## The host's view of the decoder -/

/-- The instruction the decoder reads from the bits `w` of a table row: `nbits` bits, every bit above them 0, laid out
as four little-endian bytes, with the default `HALT_WORD`, which is the table's. -/
def decodeTableWord (nbits w : Nat) : Option Instr :=
  match decodeBytes Config.defaultHaltWord (bytesOfWord (BitVec.ofNat 32 (w % 2 ^ nbits))) with
  | .ok (i, _) => some i
  | .error _ => none

end Sys2Proof
end

