-- ==== Sys2Proof/Machine/Ops.lean ====
section
/-! DEFINITION. The named operations over the state: registers, flags, pc, memory, the peripheral, diagnostics and stops
(00_scope.md R15; 10_state.md; 20_memory.md). Recording a diagnostic and stopping are what this hardware has in the
place of taking an exception (60_exceptions.md R178, R179). -/

namespace Sys2Proof.Machine

/-! ## Registers -/

/-- `x[i]`: index 31 reads 0 (00_scope.md R15; 10_state.md R20). -/
def State.x (s : State) (i : RegIdx) : Word :=
  if h : i.toNat < 31 then s.regs[i.toNat] else 0#64

/-- `x[i] <- v`: a write of index 31 is discarded (00_scope.md R15; 10_state.md R20). -/
def State.setX (s : State) (i : RegIdx) (v : Word) : State :=
  if h : i.toNat < 31 then { s with regs := s.regs.set i.toNat v } else s

/-- `xs[i, sf]`: the operand of width W(sf) (00_scope.md R15). -/
def State.xs (s : State) (i : RegIdx) (sz : OpSize) : BitVec sz.bits :=
  (s.x i).setWidth sz.bits

/-- `wreg(i, sf, v)`: a 32-bit write zero-extends into the whole register (00_scope.md R15; 10_state.md R21). -/
def State.wreg (s : State) (i : RegIdx) (sz : OpSize) (v : BitVec sz.bits) : State :=
  s.setX i (v.setWidth 64)

/-! ## Flags, pc and the report of the pc -/

/-- Every writer of flags writes all four (10_state.md R25). -/
def State.setFlags (s : State) (f : Flags) : State :=
  { s with flags := f }

/-- `pc <- target` (00_scope.md R15). -/
def State.setPc (s : State) (target : Word) : State :=
  { s with pc := target }

/-- `execute`'s report whether the instruction altered the pc itself (10_state.md R26; 46_step.md R168). -/
def State.report (s : State) (written : Bool) : State :=
  { s with pcWritten := written }

/-! ## Diagnostics and stops -/

/-- `diag(e)`: append to the diagnostic log (00_scope.md R15; 10_state.md R28). -/
def State.diag (s : State) (e : Diag) : State :=
  { s with diagLog := s.diagLog ++ [e] }

/-- `stop(r)` (00_scope.md R15; 10_state.md R29). -/
def State.stopWith (s : State) (r : StopReason) : State :=
  { s with stop := r }

/-- A stop that records a diagnostic and changes nothing else (60_exceptions.md R179, R181). -/
def State.abnormalStop (s : State) (r : StopReason) (e : Diag) : State :=
  (s.diag e).stopWith r

/-! ## Memory bytes -/

/-- What a byte that no cell lists reads as: 0 (10_state.md R34, decision D7; notes/assumptions/6.md). -/
abbrev Memory.unlisted : Byte := 0#8

/-- The byte at `a` in a list of cells whose addresses rise. -/
def readCells : List Host.Cell → Nat → Byte
  | [], _ => Memory.unlisted
  | (b, v) :: rest, a =>
    if a < b then Memory.unlisted else if a = b then v else readCells rest a

/-- Write one byte: the cells stay in canonical form (`Memory.wf`). -/
def writeCells : List Host.Cell → Nat → Byte → List Host.Cell
  | [], a, v => if v = Memory.unlisted then [] else [(a, v)]
  | (b, u) :: rest, a, v =>
    if a < b then (if v = Memory.unlisted then (b, u) :: rest else (a, v) :: (b, u) :: rest)
    else if a = b then (if v = Memory.unlisted then rest else (a, v) :: rest)
    else (b, u) :: writeCells rest a v

/-- Addresses rise from `lo` on, every one below MEM_SIZE, and no cell holds what an unlisted address reads as. -/
def cellsWf : Nat → List Host.Cell → Bool
  | _, [] => true
  | lo, (a, v) :: rest =>
    decide (lo ≤ a) && decide (a < Config.memSize) && v != Memory.unlisted && cellsWf (a + 1) rest

/-- `M[a]` (20_memory.md R35). -/
def Memory.read (m : Memory) (a : Nat) : Byte :=
  readCells m.cells a

/-- `M[a] <- v` (20_memory.md R45). -/
def Memory.write (m : Memory) (a : Nat) (v : Byte) : Memory :=
  { cells := writeCells m.cells a v }

/-- The canonical form of memory. -/
def Memory.wf (m : Memory) : Bool :=
  cellsWf 0 m.cells

/-- The `n`-byte little-endian value at `a`, as an unsigned value (20_memory.md R37, R44). -/
def readLE (m : Memory) (a : Nat) : Nat → Word
  | 0 => 0#64
  | n + 1 => (m.read a).setWidth 64 ||| (readLE m (a + 1) n <<< 8)

/-- Store the low `n` bytes of `v` little-endian at `a` (20_memory.md R37, R45). -/
def writeLE (m : Memory) (a : Nat) : Nat → Word → Memory
  | 0, _ => m
  | n + 1, v => writeLE (m.write a (v.setWidth 8)) (a + 1) n (v >>> 8)

/-! ## Access primitives -/

/-- An access of `n` bytes at `a` is in bounds: the sum is over the integers (20_memory.md R43). -/
def inBounds (a : Word) (n : Nat) : Bool :=
  decide (a.toNat + n ≤ Config.memSize)

/-- `MemRead(a, n)`: out of bounds it gives 0 and records a diagnostic (20_memory.md R44; 90_conflicts.md C1). -/
def State.memRead (s : State) (a : Word) (sz : OpSize) : Word × State :=
  if inBounds a sz.bytes then (readLE s.mem a.toNat sz.bytes, s) else (0#64, s.diag (.oobLoad a sz))

/-- `MemWrite(a, n, v)`: out of bounds it changes no byte and records a diagnostic (20_memory.md R45). -/
def State.memWrite (s : State) (a : Word) (sz : OpSize) (v : Word) : State :=
  if inBounds a sz.bytes then { s with mem := writeLE s.mem a.toNat sz.bytes v } else s.diag (.oobStore a sz)

/-- `Fetch(pc)`: the little-endian word at pc, from the current memory (20_memory.md R46, R52). -/
def State.fetch (s : State) : InsnWord :=
  (readLE s.mem s.pc.toNat 4).setWidth 32

/-- `a ∈ PERIPH_RANGE` (00_scope.md R12). -/
def Params.isPeriph (p : Params) (a : Word) : Bool :=
  p.periphRange.any fun r => decide (r.base ≤ a.toNat) && decide (a.toNat < r.base + r.size)

/-- The peripheral's side effect, an event; memory is not touched (20_memory.md R47; 60_exceptions.md R190). -/
def State.periphStore (s : State) (a : Word) (sz : OpSize) (v : Word) : State :=
  { s with periphEvents := s.periphEvents ++ [{ addr := a, size := sz, value := v }] }

/-- `StoreAccess(a, n, v)`: the peripheral carve-out first, on the start address only (20_memory.md R47). -/
def State.storeAccess (s : State) (a : Word) (sz : OpSize) (v : Word) : State :=
  if Params.isPeriph s.params a then s.periphStore a sz v else s.memWrite a sz v

end Sys2Proof.Machine
end

