-- ==== Sys2Proof/Machine/Shift.lean ====
section
/-! DEFINITION. The Shift Engine: LSL, LSR, ASR and ROR on 32- and 64-bit operands (40_shift_engine.md). -/

namespace Sys2Proof.Machine

/-- LSL on a `w`-bit value (40_shift_engine.md R99; an amount of the width or more gives 0, notes/assumptions/14.md). -/
def shiftLsl {w : Nat} (v : BitVec w) (amount : Nat) : BitVec w :=
  if amount < w then v <<< amount else 0#w

/-- LSR on a `w`-bit value (40_shift_engine.md R100; an amount of the width or more gives 0). -/
def shiftLsr {w : Nat} (v : BitVec w) (amount : Nat) : BitVec w :=
  if amount < w then v >>> amount else 0#w

/-- ASR on a `w`-bit value: an amount of the width or more gives all copies of the sign (40_shift_engine.md R101). -/
def shiftAsr {w : Nat} (v : BitVec w) (amount : Nat) : BitVec w :=
  if amount < w then v.sshiftRight amount else if v.msb then BitVec.allOnes w else 0#w

/-- ROR on a `w`-bit value: the amount is taken modulo the width (40_shift_engine.md R102). -/
def shiftRor {w : Nat} (v : BitVec w) (amount : Nat) : BitVec w :=
  let a := amount % w
  if a = 0 then v else (v >>> a) ||| (v <<< (w - a))

/-- The four shifts at one width. -/
def shiftAt {w : Nat} (v : BitVec w) (amount : Nat) : ShiftType → BitVec w
  | .lsl => shiftLsl v amount
  | .lsr => shiftLsr v amount
  | .asr => shiftAsr v amount
  | .ror => shiftRor v amount

/-- `shift(value, amount, type, is64)` (40_shift_engine.md R97): the value is truncated to the width first, and the
result is a value of that width, zero-extended to 64 bits (R98). -/
def shift (value : Word) (amount : Nat) (type : ShiftType) (sz : OpSize) : Word :=
  (shiftAt (value.setWidth sz.bits) amount type).setWidth 64

end Sys2Proof.Machine
end

