-- ==== Sys2Proof/Machine/Operands.lean ====
section
/-! DEFINITION. Every operand form: the immediates (30_encoding.md R80 to R86) and the shifted second operand
(R87; 43_dp_register.md R125). -/

namespace Sys2Proof.Machine

/-- `sext_N(v)`, to 64 bits (30_encoding.md R80). -/
def sext {n : Nat} (v : BitVec n) : Word :=
  v.signExtend 64

/-- The DP_IMM arithmetic operand `zext_12(imm12) << (12 × sh)` (30_encoding.md R84; 42_dp_immediate.md R115). -/
def arithImm (sz : OpSize) (sh : Bool) (imm12 : BitVec 12) : BitVec sz.bits :=
  if sh then imm12.setWidth sz.bits <<< 12 else imm12.setWidth sz.bits

/-- The wide-move operand `zext_16(imm16) << (16 × hw)`, of width W (30_encoding.md R86; 42_dp_immediate.md R121). -/
def wideImm (sz : OpSize) (hw : BitVec 2) (imm16 : BitVec 16) : BitVec sz.bits :=
  imm16.setWidth sz.bits <<< (16 * hw.toNat)

/-- The lane mask `0xFFFF << (16 × hw)` of MOVK (42_dp_immediate.md R124). -/
def wideLane (sz : OpSize) (hw : BitVec 2) : BitVec sz.bits :=
  wideImm sz hw 0xFFFF#16

/-- The SDT unsigned offset `zext_12(imm12) × (8 or 4)` (30_encoding.md R85). -/
def unsignedOffset (sz : OpSize) (imm12 : BitVec 12) : Word :=
  imm12.setWidth 64 * BitVec.ofNat 64 sz.bytes

/-- A word offset `sext_N(simm) × 4` mod 2^64: LDR (literal), B.cond and B (30_encoding.md R82, R83). -/
def wordOffset {n : Nat} (simm : BitVec n) : Word :=
  sext simm * 4#64

/-- The DP_REG operand `shift(x[rm], imm6, type, sf == 1)`, of width W (30_encoding.md R87; 43_dp_register.md R125). -/
def State.shiftedReg (s : State) (sz : OpSize) (type : ShiftType) (rm : RegIdx) (imm6 : BitVec 6) : BitVec sz.bits :=
  (shift (s.x rm) imm6.toNat type sz).setWidth sz.bits

end Sys2Proof.Machine
end

