-- ==== Sys2Proof/Machine/Branch.lean ====
section
/-! DEFINITION. Branches and HALT (45_branch.md). No target is checked here: the loop checks it at the next fetch (R166). -/

namespace Sys2Proof.Machine

/-- `pc <- target; pc_written <- true` (45_branch.md R162). -/
def State.branchTo (s : State) (target : Word) : State :=
  (s.setPc target).report true

/-- B (45_branch.md R162). -/
def execB (simm26 : BitVec 26) (s : State) : Host.Outcome State Fault Refusal :=
  .next (s.branchTo (s.pc + wordOffset simm26))

/-- BR: with rn = 31 the pc stays, and is reported as written all the same (45_branch.md R163; 90_conflicts.md C5). -/
def execBr (rn : RegIdx) (s : State) : Host.Outcome State Fault Refusal :=
  .next (if rn = zeroReg then s.report true else s.branchTo (s.x rn))

/-- B.cond: an untaken one leaves the pc to the loop's advance (45_branch.md R164). -/
def execBCond (simm19 : BitVec 19) (cond : Cond) (s : State) : Host.Outcome State Fault Refusal :=
  .next (if condHolds cond s.flags then s.branchTo (s.pc + wordOffset simm19) else s.report false)

/-- HALT carries no action of its own; the loop stops (45_branch.md R165; `State.conclude`, Machine/Loop.lean). -/
def execHalt (s : State) : Host.Outcome State Fault Refusal :=
  .next (s.report false)

end Sys2Proof.Machine
end

