-- ==== Sys2Proof/Machine/DpImmediate.lean ====
section
/-! DEFINITION. Data processing, immediate (42_dp_immediate.md), and the ALU operation it shares with the register
arithmetic forms. -/

namespace Sys2Proof.Machine

/-- `(r, n, z, c, v) = AddSub(a, b, sub, W)`; `wreg(rd, sf, r)`; the flags where `setFlags` says so; pc not written
(42_dp_immediate.md R114, R116 to R119; 43_dp_register.md R126 to R129). -/
def State.arith (s : State) (sz : OpSize) (rd : RegIdx) (a b : BitVec sz.bits) (sub setFlags : Bool) : State :=
  let (r, f) := addSub a b sub
  let t := s.wreg rd sz r
  (if setFlags then t.setFlags f else t).report false

/-- `wreg(rd, sf, v)`, no flags, pc not written (42_dp_immediate.md R121; 43_dp_register.md R142, R144). -/
def State.move (s : State) (sz : OpSize) (rd : RegIdx) (v : BitVec sz.bits) : State :=
  (s.wreg rd sz v).report false

/-- ADD (immediate): no flags, not even with rd = 31 (42_dp_immediate.md R116, R120). -/
def execAddImm (sz : OpSize) (sh : Bool) (imm12 : BitVec 12) (rn rd : RegIdx) (s : State) :
    Host.Outcome State Fault Refusal :=
  .next (s.arith sz rd (s.xs rn sz) (arithImm sz sh imm12) false false)

/-- ADDS (immediate) (42_dp_immediate.md R117). -/
def execAddsImm (sz : OpSize) (sh : Bool) (imm12 : BitVec 12) (rn rd : RegIdx) (s : State) :
    Host.Outcome State Fault Refusal :=
  .next (s.arith sz rd (s.xs rn sz) (arithImm sz sh imm12) false true)

/-- SUB (immediate): no flags, not even with rd = 31 (42_dp_immediate.md R118, R120). -/
def execSubImm (sz : OpSize) (sh : Bool) (imm12 : BitVec 12) (rn rd : RegIdx) (s : State) :
    Host.Outcome State Fault Refusal :=
  .next (s.arith sz rd (s.xs rn sz) (arithImm sz sh imm12) true false)

/-- SUBS (immediate) (42_dp_immediate.md R119). -/
def execSubsImm (sz : OpSize) (sh : Bool) (imm12 : BitVec 12) (rn rd : RegIdx) (s : State) :
    Host.Outcome State Fault Refusal :=
  .next (s.arith sz rd (s.xs rn sz) (arithImm sz sh imm12) true true)

/-- MOVZ (42_dp_immediate.md R122). -/
def execMovz (sz : OpSize) (hw : BitVec 2) (imm16 : BitVec 16) (rd : RegIdx) (s : State) :
    Host.Outcome State Fault Refusal :=
  .next (s.move sz rd (wideImm sz hw imm16))

/-- MOVN: the complement is taken at width W (42_dp_immediate.md R123). -/
def execMovn (sz : OpSize) (hw : BitVec 2) (imm16 : BitVec 16) (rd : RegIdx) (s : State) :
    Host.Outcome State Fault Refusal :=
  .next (s.move sz rd (~~~ wideImm sz hw imm16))

/-- MOVK: rd is read before it is written, and only its 16-bit lane changes (42_dp_immediate.md R124). -/
def execMovk (sz : OpSize) (hw : BitVec 2) (imm16 : BitVec 16) (rd : RegIdx) (s : State) :
    Host.Outcome State Fault Refusal :=
  .next (s.move sz rd ((s.xs rd sz &&& ~~~ wideLane sz hw) ||| wideImm sz hw imm16))

end Sys2Proof.Machine
end

