-- ==== Sys2Proof/Machine/DpRegister.lean ====
section
/-! DEFINITION. Data processing, register (43_dp_register.md): shifted-register arithmetic, the eight logical operations
and multiply. -/

namespace Sys2Proof.Machine

/-- The zero-register flag clause: a form without S writes the flags exactly when its destination is index 31
(43_dp_register.md R130, R141; 90_conflicts.md C3; notes/assumptions/15.md). -/
def zeroRegClause (rd : RegIdx) : Bool :=
  rd == zeroReg

/-- `wreg(rd, sf, r)`, with the logical flags of `r` where `setFlags` says so; pc not written
(43_dp_register.md R131, R132). -/
def State.logic (s : State) (sz : OpSize) (rd : RegIdx) (r : BitVec sz.bits) (setFlags : Bool) : State :=
  let t := s.wreg rd sz r
  (if setFlags then t.setFlags (logicFlags r) else t).report false

/-- ADD (shifted register): flags only when rd = 31 (43_dp_register.md R126, R130). -/
def execAddReg (sz : OpSize) (type : ShiftType) (rm : RegIdx) (imm6 : BitVec 6) (rn rd : RegIdx) (s : State) :
    Host.Outcome State Fault Refusal :=
  .next (s.arith sz rd (s.xs rn sz) (s.shiftedReg sz type rm imm6) false (zeroRegClause rd))

/-- ADDS (shifted register) (43_dp_register.md R127). -/
def execAddsReg (sz : OpSize) (type : ShiftType) (rm : RegIdx) (imm6 : BitVec 6) (rn rd : RegIdx) (s : State) :
    Host.Outcome State Fault Refusal :=
  .next (s.arith sz rd (s.xs rn sz) (s.shiftedReg sz type rm imm6) false true)

/-- SUB (shifted register): flags only when rd = 31 (43_dp_register.md R128, R130). -/
def execSubReg (sz : OpSize) (type : ShiftType) (rm : RegIdx) (imm6 : BitVec 6) (rn rd : RegIdx) (s : State) :
    Host.Outcome State Fault Refusal :=
  .next (s.arith sz rd (s.xs rn sz) (s.shiftedReg sz type rm imm6) true (zeroRegClause rd))

/-- SUBS (shifted register) (43_dp_register.md R129). -/
def execSubsReg (sz : OpSize) (type : ShiftType) (rm : RegIdx) (imm6 : BitVec 6) (rn rd : RegIdx) (s : State) :
    Host.Outcome State Fault Refusal :=
  .next (s.arith sz rd (s.xs rn sz) (s.shiftedReg sz type rm imm6) true true)

/-- AND (shifted register): flags only when rd = 31 (43_dp_register.md R133, R141). -/
def execAndReg (sz : OpSize) (type : ShiftType) (rm : RegIdx) (imm6 : BitVec 6) (rn rd : RegIdx) (s : State) :
    Host.Outcome State Fault Refusal :=
  .next (s.logic sz rd (s.xs rn sz &&& s.shiftedReg sz type rm imm6) (zeroRegClause rd))

/-- BIC (shifted register): flags only when rd = 31 (43_dp_register.md R134, R141). -/
def execBicReg (sz : OpSize) (type : ShiftType) (rm : RegIdx) (imm6 : BitVec 6) (rn rd : RegIdx) (s : State) :
    Host.Outcome State Fault Refusal :=
  .next (s.logic sz rd (s.xs rn sz &&& ~~~ (s.shiftedReg sz type rm imm6)) (zeroRegClause rd))

/-- ORR (shifted register): flags only when rd = 31 (43_dp_register.md R135, R141). -/
def execOrrReg (sz : OpSize) (type : ShiftType) (rm : RegIdx) (imm6 : BitVec 6) (rn rd : RegIdx) (s : State) :
    Host.Outcome State Fault Refusal :=
  .next (s.logic sz rd (s.xs rn sz ||| s.shiftedReg sz type rm imm6) (zeroRegClause rd))

/-- ORN (shifted register): flags only when rd = 31 (43_dp_register.md R136, R141). -/
def execOrnReg (sz : OpSize) (type : ShiftType) (rm : RegIdx) (imm6 : BitVec 6) (rn rd : RegIdx) (s : State) :
    Host.Outcome State Fault Refusal :=
  .next (s.logic sz rd (s.xs rn sz ||| ~~~ (s.shiftedReg sz type rm imm6)) (zeroRegClause rd))

/-- EOR (shifted register): flags only when rd = 31 (43_dp_register.md R137, R141). -/
def execEorReg (sz : OpSize) (type : ShiftType) (rm : RegIdx) (imm6 : BitVec 6) (rn rd : RegIdx) (s : State) :
    Host.Outcome State Fault Refusal :=
  .next (s.logic sz rd (s.xs rn sz ^^^ s.shiftedReg sz type rm imm6) (zeroRegClause rd))

/-- EON (shifted register): flags only when rd = 31 (43_dp_register.md R138, R141). -/
def execEonReg (sz : OpSize) (type : ShiftType) (rm : RegIdx) (imm6 : BitVec 6) (rn rd : RegIdx) (s : State) :
    Host.Outcome State Fault Refusal :=
  .next (s.logic sz rd (s.xs rn sz ^^^ ~~~ (s.shiftedReg sz type rm imm6)) (zeroRegClause rd))

/-- ANDS (shifted register): flags always (43_dp_register.md R139). -/
def execAndsReg (sz : OpSize) (type : ShiftType) (rm : RegIdx) (imm6 : BitVec 6) (rn rd : RegIdx) (s : State) :
    Host.Outcome State Fault Refusal :=
  .next (s.logic sz rd (s.xs rn sz &&& s.shiftedReg sz type rm imm6) true)

/-- BICS (shifted register): flags always (43_dp_register.md R140). -/
def execBicsReg (sz : OpSize) (type : ShiftType) (rm : RegIdx) (imm6 : BitVec 6) (rn rd : RegIdx) (s : State) :
    Host.Outcome State Fault Refusal :=
  .next (s.logic sz rd (s.xs rn sz &&& ~~~ (s.shiftedReg sz type rm imm6)) true)

/-- MADD: accumulator ra plus rn × rm, modulo 2^W, never any flag (43_dp_register.md R142, R144). -/
def execMadd (sz : OpSize) (rm ra rn rd : RegIdx) (s : State) : Host.Outcome State Fault Refusal :=
  .next (s.move sz rd (s.xs ra sz + s.xs rn sz * s.xs rm sz))

/-- MSUB: accumulator ra minus rn × rm, modulo 2^W, never any flag (43_dp_register.md R143, R144). -/
def execMsub (sz : OpSize) (rm ra rn rd : RegIdx) (s : State) : Host.Outcome State Fault Refusal :=
  .next (s.move sz rd (s.xs ra sz - s.xs rn sz * s.xs rm sz))

end Sys2Proof.Machine
end

