-- ==== Sys2Proof/Machine/Addressing.lean ====
section
/-! DEFINITION. The Addressing Resolver (41_addressing.md): effective addresses of the six modes, with the base
write-back of the pre- and post-indexed modes, and the invalid-mode case (R113). -/

namespace Sys2Proof.Machine

/-- The addressing modes (41_addressing.md R105). `decode` never gives `zeroOffset` (30_encoding.md R74). -/
inductive AddrMode where
  | zeroOffset
  | unsignedOffset
  | preIndexed
  | postIndexed
  | registerOffset
  | loadLiteral
  deriving DecidableEq, Repr

/-- The offset field a load or store carries beside its mode (30_encoding.md R56). -/
inductive Offset where
  | none
  | imm12 (v : BitVec 12)
  | simm9 (v : BitVec 9)
  | reg (rm : RegIdx)
  | simm19 (v : BitVec 19)
  deriving DecidableEq, Repr

/-- What the resolver is given: the mode and the decoded fields that may go with it (41_addressing.md R105). -/
structure AddrQuery where
  mode : AddrMode
  sz : OpSize
  base : Option RegIdx
  offset : Offset
  deriving DecidableEq, Repr

/-- `resolve(state, mode, decoded)`: the address and the state, with the write-back of the pre- and post-indexed modes
(41_addressing.md R106 to R112; notes/assumptions/17.md). The base and the offset register are read in the X view.
`none` is the invalid-mode case (R113): a mode with fields that do not belong to it, load-literal with a base register
or another mode without one (R105). -/
def State.resolve (s : State) (q : AddrQuery) : Option (Word × State) :=
  match q.mode, q.base, q.offset with
  | .zeroOffset, some rn, .none => some (s.x rn, s)
  | .unsignedOffset, some rn, .imm12 v => some (s.x rn + unsignedOffset q.sz v, s)
  | .preIndexed, some rn, .simm9 v => some (s.x rn + sext v, s.setX rn (s.x rn + sext v))
  | .postIndexed, some rn, .simm9 v => some (s.x rn, s.setX rn (s.x rn + sext v))
  | .registerOffset, some rn, .reg rm => some (s.x rm + s.x rn, s)
  | .loadLiteral, none, .simm19 v => some (s.pc + wordOffset v, s)
  | _, _, _ => none

/-- The invalid-mode case: a diagnostic with the pc and the word at it, and no other effect; the loop then advances pc
(41_addressing.md R113; notes/assumptions/13.md). -/
def State.resolverInconsistent (s : State) : State :=
  s.diag (.resolverInconsistent s.pc s.fetch)

end Sys2Proof.Machine
end

