-- ==== Sys2Proof/Machine/LoadStore.lean ====
section
/-! DEFINITION. Loads and stores, SDT and LL (44_load_store.md). -/

namespace Sys2Proof.Machine

/-- `LoadXfer(a, sf, rt)` (44_load_store.md R146). -/
def State.loadXfer (s : State) (a : Word) (sz : OpSize) (rt : RegIdx) : State :=
  let (v, t) := s.memRead a sz
  t.wreg rt sz (v.setWidth sz.bits)

/-- `StoreXfer(a, sf, rt)`: rt is read here, after any write-back (44_load_store.md R147, R157). -/
def State.storeXfer (s : State) (a : Word) (sz : OpSize) (rt : RegIdx) : State :=
  s.storeAccess a sz ((s.xs rt sz).setWidth 64)

/-- The common sequence of a load: resolve with its write-back, then the transfer; pc not written
(44_load_store.md R145; 41_addressing.md R113 for the resolver's invalid-mode case). -/
def State.load (s : State) (q : AddrQuery) (rt : RegIdx) : State :=
  match s.resolve q with
  | some (a, t) => (t.loadXfer a q.sz rt).report false
  | none => s.resolverInconsistent.report false

/-- The common sequence of a store (44_load_store.md R145). -/
def State.store (s : State) (q : AddrQuery) (rt : RegIdx) : State :=
  match s.resolve q with
  | some (a, t) => (t.storeXfer a q.sz rt).report false
  | none => s.resolverInconsistent.report false

/-- LDR (unsigned offset) (44_load_store.md R148). -/
def execLdrUnsigned (sz : OpSize) (imm12 : BitVec 12) (rn rt : RegIdx) (s : State) : Host.Outcome State Fault Refusal :=
  .next (s.load (.mk .unsignedOffset sz (some rn) (.imm12 imm12)) rt)

/-- STR (unsigned offset) (44_load_store.md R149). -/
def execStrUnsigned (sz : OpSize) (imm12 : BitVec 12) (rn rt : RegIdx) (s : State) : Host.Outcome State Fault Refusal :=
  .next (s.store (.mk .unsignedOffset sz (some rn) (.imm12 imm12)) rt)

/-- LDR (pre-indexed) (44_load_store.md R150). -/
def execLdrPre (sz : OpSize) (simm9 : BitVec 9) (rn rt : RegIdx) (s : State) : Host.Outcome State Fault Refusal :=
  .next (s.load (.mk .preIndexed sz (some rn) (.simm9 simm9)) rt)

/-- STR (pre-indexed) (44_load_store.md R151). -/
def execStrPre (sz : OpSize) (simm9 : BitVec 9) (rn rt : RegIdx) (s : State) : Host.Outcome State Fault Refusal :=
  .next (s.store (.mk .preIndexed sz (some rn) (.simm9 simm9)) rt)

/-- LDR (post-indexed) (44_load_store.md R152). -/
def execLdrPost (sz : OpSize) (simm9 : BitVec 9) (rn rt : RegIdx) (s : State) : Host.Outcome State Fault Refusal :=
  .next (s.load (.mk .postIndexed sz (some rn) (.simm9 simm9)) rt)

/-- STR (post-indexed): with rt = rn the updated base is stored (44_load_store.md R153, R157;
notes/assumptions/24.md). -/
def execStrPost (sz : OpSize) (simm9 : BitVec 9) (rn rt : RegIdx) (s : State) : Host.Outcome State Fault Refusal :=
  .next (s.store (.mk .postIndexed sz (some rn) (.simm9 simm9)) rt)

/-- LDR (register offset) (44_load_store.md R154). -/
def execLdrReg (sz : OpSize) (rm rn rt : RegIdx) (s : State) : Host.Outcome State Fault Refusal :=
  .next (s.load (.mk .registerOffset sz (some rn) (.reg rm)) rt)

/-- STR (register offset) (44_load_store.md R155). -/
def execStrReg (sz : OpSize) (rm rn rt : RegIdx) (s : State) : Host.Outcome State Fault Refusal :=
  .next (s.store (.mk .registerOffset sz (some rn) (.reg rm)) rt)

/-- LDR (literal) (44_load_store.md R156). -/
def execLdrLit (sz : OpSize) (simm19 : BitVec 19) (rt : RegIdx) (s : State) : Host.Outcome State Fault Refusal :=
  .next (s.load (.mk .loadLiteral sz none (.simm19 simm19)) rt)

end Sys2Proof.Machine
end

