-- ==== Sys2Proof/Machine/Dispatch.lean ====
section
/-! DEFINITION. `execute`: one arm per instruction, each one call of its meaning (46_step.md R168). -/

namespace Sys2Proof.Machine

-- Every row of spec/opcode_table.json has its meaning: no arm is rejected by name.
def exec (i : Instr) (s : State) : Host.Outcome State Fault Refusal :=
  match i with
  | .addImm sz sh imm12 rn rd => Sys2Proof.Machine.execAddImm sz sh imm12 rn rd s
  | .addsImm sz sh imm12 rn rd => Sys2Proof.Machine.execAddsImm sz sh imm12 rn rd s
  | .subImm sz sh imm12 rn rd => Sys2Proof.Machine.execSubImm sz sh imm12 rn rd s
  | .subsImm sz sh imm12 rn rd => Sys2Proof.Machine.execSubsImm sz sh imm12 rn rd s
  | .movn sz hw imm16 rd => Sys2Proof.Machine.execMovn sz hw imm16 rd s
  | .movz sz hw imm16 rd => Sys2Proof.Machine.execMovz sz hw imm16 rd s
  | .movk sz hw imm16 rd => Sys2Proof.Machine.execMovk sz hw imm16 rd s
  | .addReg sz type rm imm6 rn rd => Sys2Proof.Machine.execAddReg sz type rm imm6 rn rd s
  | .addsReg sz type rm imm6 rn rd => Sys2Proof.Machine.execAddsReg sz type rm imm6 rn rd s
  | .subReg sz type rm imm6 rn rd => Sys2Proof.Machine.execSubReg sz type rm imm6 rn rd s
  | .subsReg sz type rm imm6 rn rd => Sys2Proof.Machine.execSubsReg sz type rm imm6 rn rd s
  | .andReg sz type rm imm6 rn rd => Sys2Proof.Machine.execAndReg sz type rm imm6 rn rd s
  | .bicReg sz type rm imm6 rn rd => Sys2Proof.Machine.execBicReg sz type rm imm6 rn rd s
  | .orrReg sz type rm imm6 rn rd => Sys2Proof.Machine.execOrrReg sz type rm imm6 rn rd s
  | .ornReg sz type rm imm6 rn rd => Sys2Proof.Machine.execOrnReg sz type rm imm6 rn rd s
  | .eorReg sz type rm imm6 rn rd => Sys2Proof.Machine.execEorReg sz type rm imm6 rn rd s
  | .eonReg sz type rm imm6 rn rd => Sys2Proof.Machine.execEonReg sz type rm imm6 rn rd s
  | .andsReg sz type rm imm6 rn rd => Sys2Proof.Machine.execAndsReg sz type rm imm6 rn rd s
  | .bicsReg sz type rm imm6 rn rd => Sys2Proof.Machine.execBicsReg sz type rm imm6 rn rd s
  | .madd sz rm ra rn rd => Sys2Proof.Machine.execMadd sz rm ra rn rd s
  | .msub sz rm ra rn rd => Sys2Proof.Machine.execMsub sz rm ra rn rd s
  | .strUnsigned sz imm12 rn rt => Sys2Proof.Machine.execStrUnsigned sz imm12 rn rt s
  | .ldrUnsigned sz imm12 rn rt => Sys2Proof.Machine.execLdrUnsigned sz imm12 rn rt s
  | .strPre sz simm9 rn rt => Sys2Proof.Machine.execStrPre sz simm9 rn rt s
  | .ldrPre sz simm9 rn rt => Sys2Proof.Machine.execLdrPre sz simm9 rn rt s
  | .strPost sz simm9 rn rt => Sys2Proof.Machine.execStrPost sz simm9 rn rt s
  | .ldrPost sz simm9 rn rt => Sys2Proof.Machine.execLdrPost sz simm9 rn rt s
  | .strReg sz rm rn rt => Sys2Proof.Machine.execStrReg sz rm rn rt s
  | .ldrReg sz rm rn rt => Sys2Proof.Machine.execLdrReg sz rm rn rt s
  | .ldrLit sz simm19 rt => Sys2Proof.Machine.execLdrLit sz simm19 rt s
  | .b simm26 => Sys2Proof.Machine.execB simm26 s
  | .br rn => Sys2Proof.Machine.execBr rn s
  | .bCond simm19 cond => Sys2Proof.Machine.execBCond simm19 cond s
  | .halt => Sys2Proof.Machine.execHalt s

end Sys2Proof.Machine
end

