-- ==== Sys2Proof/Machine/Loop.lean ====
section
/-! DEFINITION. The control contract of the fetch-decode-execute loop: its checks in their order, and what it does after
`execute` (46_step.md R169 to R175; 45_branch.md R165). -/

namespace Sys2Proof.Machine

/-- What the loop does with a state before anything executes. -/
inductive Prepared where
  /-- The step is over: the machine had stopped, or stops here. -/
  | done (s : State)
  /-- This instruction executes. -/
  | run (i : Instr)
  deriving DecidableEq, Repr

/-- The checks of a step in their order: stopped, PC bounds, PC alignment, fetch and decode, UNKNOWN
(46_step.md R169 to R173; 60_exceptions.md R180). -/
def State.prepare (s : State) : Prepared :=
  if s.stop ≠ .none then .done s
  else if inBounds s.pc Config.insnBytes = false then .done (s.abnormalStop .pcOob (.pcOob s.pc))
  else if s.pc.toNat % 4 ≠ 0 then .done (s.abnormalStop .pcMisaligned (.pcMisaligned s.pc))
  else
    match decode s.params.haltWord s.fetch with
    | .unknown w => .done (s.abnormalStop .undefinedInsn (.undefinedInsn s.pc w))
    | .instr i => .run i

/-- What the loop does after `execute` gave `t` for the instruction `i` fetched at `old`: HALT stops without the advance
(45_branch.md R165), a branch that left pc unchanged stops (46_step.md R175), an instruction that did not write pc
advances it by 4 (R174). The report is not kept (10_state.md R26). -/
def State.conclude (t : State) (i : Instr) (old : Word) : State :=
  (if i = .halt then t.stopWith .halt
   else if t.pcWritten then (if t.pc = old then t.stopWith .stuckPc else t)
   else t.setPc (t.pc + 4#64)).report false

/-- Store an instruction word where the next step fetches: its four little-endian bytes at pc (20_memory.md R38, R46);
nothing changes where pc is out of memory. -/
def State.placeWord (s : State) (w : InsnWord) : State :=
  if inBounds s.pc Config.insnBytes then { s with mem := writeLE s.mem s.pc.toNat 4 (w.setWidth 64) } else s

end Sys2Proof.Machine
end

