-- ==== Sys2Proof/Machine/Step.lean ====
section
/-! DEFINITION. One step of the loop (46_step.md R169), and the placing of a word for the next fetch. -/

namespace Sys2Proof.Machine

/-- `step(state)` (46_step.md R169): the loop's checks, `execute`, and what the loop does after it. -/
def step (s : State) : Host.Outcome State Fault Refusal :=
  match s.prepare with
  | .done t => .next t
  | .run i =>
    match exec i s with
    | .next t => .next (t.conclude i s.pc)
    | .fault r => .fault r
    | .refused r => .refused r

/-- `s` with the instruction of the bits `w` where the next step fetches (notes/assumptions/9.md). -/
def State.withFetchWord (s : State) (nbits w : Nat) : State :=
  s.placeWord (BitVec.ofNat 32 (w % 2 ^ nbits))

end Sys2Proof.Machine
end

