-- ==== Sys2Proof/Machine/Boot.lean ====
section
/-! DEFINITION. Reset with an image and parameters (70_reset_and_hazards.md R195, R196). -/

namespace Sys2Proof.Machine

/-- Store the bytes of an image at `a`, `a + 1`, … (70_reset_and_hazards.md R196). -/
def storeBytes (m : Memory) (a : Nat) : List Byte → Memory
  | [] => m
  | b :: rest => storeBytes (m.write a b) (a + 1) rest

/-- `load_image(image)`: the first MEM_SIZE bytes, from address 0 on, and a diagnostic where the image is longer
(70_reset_and_hazards.md R196). -/
def State.loadImage (s : State) (image : List Byte) : State :=
  { s with
    mem := storeBytes s.mem 0 (image.take Config.memSize)
    diagLog := if Config.memSize < image.length then [.imageTruncated image.length] else [] }

/-- `reset(image, MEM_SIZE, HALT_WORD, PERIPH_RANGE)` (70_reset_and_hazards.md R195). -/
def State.boot (p : Params) (image : List Byte) : State :=
  State.loadImage { State.reset with params := p } image

end Sys2Proof.Machine
end

