-- ==== Sys2Proof/Machine/HostView.lean ====
section
/-! DEFINITION. What the host reads at the end of a run (60_exceptions.md R182, R192). -/

namespace Sys2Proof.Machine

/-- How an ended run is to be read (60_exceptions.md R182). -/
inductive OutcomeClass where
  | running
  | normalEnd
  | guardEnd
  | abnormalEnd
  deriving DecidableEq, Repr

/-- The class of each stop reason (60_exceptions.md R182, decision D30). -/
def StopReason.outcome : StopReason → OutcomeClass
  | .none => .running
  | .halt => .normalEnd
  | .stuckPc => .guardEnd
  | .undefinedInsn | .pcOob | .pcMisaligned => .abnormalEnd

/-- The final-state dump (60_exceptions.md R192): the registers X0 to X30, pc, the flag string, every non-zero aligned
memory word with its address, and what this spec adds. The text layout is no part of the hardware. -/
structure FinalState where
  regs : List Word
  pc : Word
  flags : String
  words : List (Nat × InsnWord)
  stop : StopReason
  diagLog : List Diag
  periphEvents : List PeriphEvent
  deriving DecidableEq, Repr

/-- A flag's position in the flag string: its letter, or - where it is clear (60_exceptions.md R192). -/
def flagChar (set : Bool) (letter : Char) : Char :=
  if set then letter else '-'

/-- The flag string, in the order N, Z, C, V (60_exceptions.md R192, decision D38). -/
def Flags.string (f : Flags) : String :=
  String.ofList [flagChar f.n 'N', flagChar f.z 'Z', flagChar f.c 'C', flagChar f.v 'V']

/-- The 32-bit little-endian value at `a`. -/
def Memory.word (m : Memory) (a : Nat) : InsnWord :=
  (readLE m a 4).setWidth 32

/-- The addresses of the aligned words that hold one of the cells' bytes, each once, in the cells' order; `last` is the
one found before. -/
def wordAddrs (last : Option Nat) : List Host.Cell → List Nat
  | [] => []
  | (a, _) :: rest =>
    let w := a / 4 * 4
    if last = some w then wordAddrs last rest else w :: wordAddrs (some w) rest

/-- Every non-zero aligned word, in increasing address order (60_exceptions.md R192, decision D38). A word of a canonical
memory is not zero exactly when one of its bytes is listed. -/
def Memory.nonzeroWords (m : Memory) : List (Nat × InsnWord) :=
  (wordAddrs none m.cells).map fun a => (a, m.word a)

/-- The final-state dump (60_exceptions.md R192). -/
def State.dump (s : State) : FinalState where
  regs := s.regs.toList
  pc := s.pc
  flags := s.flags.string
  words := s.mem.nonzeroWords
  stop := s.stop
  diagLog := s.diagLog
  periphEvents := s.periphEvents

end Sys2Proof.Machine
end

