-- ==== Sys2Proof/Safety.lean ====
section
/-! DEFINITION. The terms the claims use: runs, what counts as a correct run, the spec's arithmetic over natural numbers
(written from the rules' own formulas, not from the model's definitions), what an instruction may change, and the
machine's invariant. -/

namespace Sys2Proof.Safety

open Sys2Proof.Machine

/-! ## Runs -/

/-- `k` steps (46_step.md R176); a run need not end, so it has a step budget. -/
def run : Nat → State → Host.Outcome State Fault Refusal
  | 0, s => .next s
  | k + 1, s =>
    match step s with
    | .next t => run k t
    | .fault r => .fault r
    | .refused r => .refused r

/-- The end of a run that a claim of correctness takes as its premise: `stop = HALT` and an empty `diag_log`
(60_exceptions.md R182). -/
def ranCorrectly (s : State) : Bool :=
  s.stop == .halt && s.diagLog.isEmpty

/-! ## The rules' arithmetic over natural numbers -/

/-- `xs[r, sf]` as an unsigned number (00_scope.md R15). -/
def val (s : State) (r : RegIdx) (sz : OpSize) : Nat :=
  (s.x r).toNat % 2 ^ sz.bits

/-- Bit W−1 of a W-bit number. -/
def topBit (w v : Nat) : Bool :=
  decide (2 ^ (w - 1) ≤ v)

/-- `signed_W(v)` (00_scope.md R14). -/
def signedVal (w v : Nat) : Int :=
  if topBit w v then (v : Int) - 2 ^ w else v

/-- `(a + b) mod 2^W` (42_dp_immediate.md R114). -/
def sumMod (w a b : Nat) : Nat :=
  (a + b) % 2 ^ w

/-- `(a − b) mod 2^W`, for a W-bit `b` (42_dp_immediate.md R114). -/
def diffMod (w a b : Nat) : Nat :=
  (a + (2 ^ w - b)) % 2 ^ w

/-- The flags of an addition, by R114's formulas over numbers. -/
def sumFlags (w a b : Nat) : Flags where
  n := topBit w (sumMod w a b)
  z := decide (sumMod w a b = 0)
  c := decide (sumMod w a b < a)
  v := topBit w a == topBit w b && topBit w (sumMod w a b) != topBit w a

/-- The flags of a subtraction, by R114's formulas over numbers. -/
def diffFlags (w a b : Nat) : Flags where
  n := topBit w (diffMod w a b)
  z := decide (diffMod w a b = 0)
  c := decide (b ≤ a)
  v := topBit w a != topBit w b && topBit w (diffMod w a b) != topBit w a

/-- The flags of a logical result (43_dp_register.md R132). -/
def resultFlags (w r : Nat) : Flags where
  n := topBit w r
  z := decide (r = 0)
  c := false
  v := false

/-- `NOT_W(v)` (00_scope.md R14). -/
def notMod (w v : Nat) : Nat :=
  2 ^ w - 1 - v

/-- The Shift Engine on a W-bit number, by the formulas of 40_shift_engine.md R99 to R102. -/
def shiftMod (w v amount : Nat) : ShiftType → Nat
  | .lsl => if amount < w then v * 2 ^ amount % 2 ^ w else 0
  | .lsr => if amount < w then v / 2 ^ amount else 0
  | .asr =>
    if amount < w then ((signedVal w v / 2 ^ amount) % 2 ^ w).toNat
    else if topBit w v then 2 ^ w - 1 else 0
  | .ror => if amount % w = 0 then v else (v / 2 ^ (amount % w) + v * 2 ^ (w - amount % w)) % 2 ^ w

/-- The shifted second operand `op2` as a number (43_dp_register.md R125). -/
def shiftedVal (s : State) (sz : OpSize) (type : ShiftType) (rm : RegIdx) (imm6 : BitVec 6) : Nat :=
  shiftMod sz.bits (val s rm sz) imm6.toNat type

/-- `sext_N(v)` as an unsigned 64-bit number (30_encoding.md R80). -/
def sextMod {n : Nat} (v : BitVec n) : Nat :=
  if topBit n v.toNat then v.toNat + (2 ^ 64 - 2 ^ n) else v.toNat

/-- The number of a little-endian `n`-byte access at `a` (20_memory.md R44). -/
def bytesVal (s : State) (a n : Nat) : Nat :=
  ∑ k ∈ Finset.range n, (s.mem.read (a + k)).toNat * 2 ^ (8 * k)

/-- `a ∈ PERIPH_RANGE` (00_scope.md R12). -/
def inPeriph (s : State) (a : Word) : Prop :=
  ∃ r ∈ s.params.periphRange, r.base ≤ a.toNat ∧ a.toNat < r.base + r.size

/-! ## What an instruction changes -/

/-- No memory byte, no log, no stop reason and no parameter differs. -/
structure SameElsewhere (s t : State) : Prop where
  mem : ∀ a, t.mem.read a = s.mem.read a
  periphEvents : t.periphEvents = s.periphEvents
  diagLog : t.diagLog = s.diagLog
  stop : t.stop = s.stop
  params : t.params = s.params

/-- `i` runs in `s`: register `rd` then holds the number `v` (nothing does where `rd` is 31), the flags are `f`, the pc is
untouched and reported so, and nothing else changes. -/
def WritesRegister (i : Instr) (s : State) (rd : RegIdx) (v : Nat) (f : Flags) : Prop :=
  ∃ t, exec i s = .next t ∧
    (∀ r, (t.x r).toNat = if r = rd ∧ r ≠ zeroReg then v else (s.x r).toNat) ∧
    t.flags = f ∧ t.pc = s.pc ∧ t.pcWritten = false ∧ SameElsewhere s t

/-- A base register's write-back: the register and its new value, or none (41_addressing.md R109, R110). -/
abbrev WriteBack := Option (RegIdx × Word)

/-- Register `r` after the write-back alone; index 31 reads 0 whatever was written. -/
def afterWriteBack (s : State) (wb : WriteBack) (r : RegIdx) : Word :=
  match wb with
  | some (rn, v) => if r = rn ∧ r ≠ zeroReg then v else s.x r
  | none => s.x r

/-- `i` runs in `s` as a load of `sz` from `addr` into `rt`: the write-back, then `rt` holds the little-endian bytes, or 0
with a diagnostic where the access is out of bounds; nothing else changes (44_load_store.md R145, R146). -/
def Loads (i : Instr) (s : State) (sz : OpSize) (addr : Word) (wb : WriteBack) (rt : RegIdx) : Prop :=
  ∃ t, exec i s = .next t ∧
    (∀ r, (t.x r).toNat =
      if r = rt ∧ r ≠ zeroReg then
        (if addr.toNat + sz.bytes ≤ Config.memSize then bytesVal s addr.toNat sz.bytes else 0)
      else (afterWriteBack s wb r).toNat) ∧
    t.diagLog = s.diagLog ++ (if addr.toNat + sz.bytes ≤ Config.memSize then [] else [.oobLoad addr sz]) ∧
    (∀ a, t.mem.read a = s.mem.read a) ∧
    t.flags = s.flags ∧ t.pc = s.pc ∧ t.pcWritten = false ∧
    t.periphEvents = s.periphEvents ∧ t.stop = s.stop ∧ t.params = s.params

/-- `i` runs in `s` as a store of `sz` of register `rt`, read after the write-back, to `addr`: an event and no byte where
`addr` is the peripheral's; otherwise the little-endian bytes, or a diagnostic and no byte where the access is out of
bounds; nothing else changes (44_load_store.md R145, R147; 20_memory.md R47). -/
def Stores (i : Instr) (s : State) (sz : OpSize) (addr : Word) (wb : WriteBack) (rt : RegIdx) : Prop :=
  ∃ t, exec i s = .next t ∧
    (∀ r, t.x r = afterWriteBack s wb r) ∧
    t.flags = s.flags ∧ t.pc = s.pc ∧ t.pcWritten = false ∧ t.stop = s.stop ∧ t.params = s.params ∧
    (inPeriph s addr →
      (∀ a, t.mem.read a = s.mem.read a) ∧ t.diagLog = s.diagLog ∧
      t.periphEvents = s.periphEvents ++
        [{ addr := addr, size := sz, value := BitVec.ofNat 64 ((afterWriteBack s wb rt).toNat % 2 ^ sz.bits) }]) ∧
    (¬ inPeriph s addr → addr.toNat + sz.bytes ≤ Config.memSize →
      (∀ a, (t.mem.read a).toNat =
        if addr.toNat ≤ a ∧ a < addr.toNat + sz.bytes
        then (afterWriteBack s wb rt).toNat / 2 ^ (8 * (a - addr.toNat)) % 256
        else (s.mem.read a).toNat) ∧
      t.diagLog = s.diagLog ∧ t.periphEvents = s.periphEvents) ∧
    (¬ inPeriph s addr → Config.memSize < addr.toNat + sz.bytes →
      (∀ a, t.mem.read a = s.mem.read a) ∧ t.diagLog = s.diagLog ++ [.oobStore addr sz] ∧
      t.periphEvents = s.periphEvents)

/-- `i` runs in `s` and leaves everything but the pc and its report: the pc is `target`, reported as `written`. -/
def Branches (i : Instr) (s : State) (target : Nat) (written : Bool) : Prop :=
  ∃ t, exec i s = .next t ∧ t.pc.toNat = target ∧ t.pcWritten = written ∧
    (∀ r, t.x r = s.x r) ∧ t.flags = s.flags ∧ SameElsewhere s t

/-- The general registers an instruction writes, where they are not index 31 (10_state.md R22). -/
def destRegs : Instr → List RegIdx
  | .addImm _ _ _ _ rd | .addsImm _ _ _ _ rd | .subImm _ _ _ _ rd | .subsImm _ _ _ _ rd => [rd]
  | .movn _ _ _ rd | .movz _ _ _ rd | .movk _ _ _ rd => [rd]
  | .addReg _ _ _ _ _ rd | .addsReg _ _ _ _ _ rd | .subReg _ _ _ _ _ rd | .subsReg _ _ _ _ _ rd => [rd]
  | .andReg _ _ _ _ _ rd | .bicReg _ _ _ _ _ rd | .orrReg _ _ _ _ _ rd | .ornReg _ _ _ _ _ rd => [rd]
  | .eorReg _ _ _ _ _ rd | .eonReg _ _ _ _ _ rd | .andsReg _ _ _ _ _ rd | .bicsReg _ _ _ _ _ rd => [rd]
  | .madd _ _ _ _ rd | .msub _ _ _ _ rd => [rd]
  | .strPre _ _ rn _ | .strPost _ _ rn _ => [rn]
  | .ldrPre _ _ rn rt | .ldrPost _ _ rn rt => [rt, rn]
  | .ldrUnsigned _ _ _ rt | .ldrReg _ _ _ rt | .ldrLit _ _ rt => [rt]
  | .strUnsigned .. | .strReg .. | .b .. | .br .. | .bCond .. | .halt => []

/-- The general registers an instruction reads (10_state.md R22). -/
def sourceRegs : Instr → List RegIdx
  | .addImm _ _ _ rn _ | .addsImm _ _ _ rn _ | .subImm _ _ _ rn _ | .subsImm _ _ _ rn _ => [rn]
  | .movn .. | .movz .. => []
  | .movk _ _ _ rd => [rd]
  | .addReg _ _ rm _ rn _ | .addsReg _ _ rm _ rn _ | .subReg _ _ rm _ rn _ | .subsReg _ _ rm _ rn _ => [rn, rm]
  | .andReg _ _ rm _ rn _ | .bicReg _ _ rm _ rn _ | .orrReg _ _ rm _ rn _ | .ornReg _ _ rm _ rn _ => [rn, rm]
  | .eorReg _ _ rm _ rn _ | .eonReg _ _ rm _ rn _ | .andsReg _ _ rm _ rn _ | .bicsReg _ _ rm _ rn _ => [rn, rm]
  | .madd _ rm ra rn _ | .msub _ rm ra rn _ => [rn, rm, ra]
  | .strUnsigned _ _ rn rt | .strPre _ _ rn rt | .strPost _ _ rn rt => [rn, rt]
  | .strReg _ rm rn rt => [rn, rm, rt]
  | .ldrUnsigned _ _ rn _ | .ldrPre _ _ rn _ | .ldrPost _ _ rn _ => [rn]
  | .ldrReg _ rm rn _ => [rn, rm]
  | .ldrLit .. => []
  | .br rn => [rn]
  | .b .. | .bCond .. | .halt => []

/-- The instructions that write the flags (10_state.md R25): ADDS, SUBS, ANDS and BICS always, the other register forms
of arithmetic and logic when their destination is index 31. -/
def flagWriter : Instr → Bool
  | .addsImm .. | .subsImm .. | .addsReg .. | .subsReg .. | .andsReg .. | .bicsReg .. => true
  | .addReg _ _ _ _ _ rd | .subReg _ _ _ _ _ rd | .andReg _ _ _ _ _ rd | .bicReg _ _ _ _ _ rd
  | .orrReg _ _ _ _ _ rd | .ornReg _ _ _ _ _ rd | .eorReg _ _ _ _ _ rd | .eonReg _ _ _ _ _ rd => rd == zeroReg
  | .addImm .. | .subImm .. | .movn .. | .movz .. | .movk .. | .madd .. | .msub .. => false
  | .strUnsigned .. | .ldrUnsigned .. | .strPre .. | .ldrPre .. | .strPost .. | .ldrPost .. => false
  | .strReg .. | .ldrReg .. | .ldrLit .. | .b .. | .br .. | .bCond .. | .halt => false

/-- The instructions that read the flags: B.cond alone (10_state.md R25). -/
def flagReader : Instr → Bool
  | .bCond .. => true
  | .addImm .. | .addsImm .. | .subImm .. | .subsImm .. | .movn .. | .movz .. | .movk .. => false
  | .addReg .. | .addsReg .. | .subReg .. | .subsReg .. | .andReg .. | .bicReg .. | .orrReg .. | .ornReg .. => false
  | .eorReg .. | .eonReg .. | .andsReg .. | .bicsReg .. | .madd .. | .msub .. => false
  | .strUnsigned .. | .ldrUnsigned .. | .strPre .. | .ldrPre .. | .strPost .. | .ldrPost .. => false
  | .strReg .. | .ldrReg .. | .ldrLit .. | .b .. | .br .. | .halt => false

/-- The meaning of a condition in words of the flags (45_branch.md R161). -/
def condMeans (c : Cond) (f : Flags) : Prop :=
  match c with
  | .eq => f.z = true
  | .ne => f.z = false
  | .ge => f.n = f.v
  | .lt => f.n ≠ f.v
  | .gt => f.z = false ∧ f.n = f.v
  | .le => ¬ (f.z = false ∧ f.n = f.v)
  | .al => True

/-- The instructions that write pc in `s`: B, BR, and B.cond when its condition holds (10_state.md R26). -/
def writesPc (i : Instr) (s : State) : Prop :=
  match i with
  | .b _ | .br _ => True
  | .bCond _ c => condMeans c s.flags
  | .addImm .. | .addsImm .. | .subImm .. | .subsImm .. | .movn .. | .movz .. | .movk .. => False
  | .addReg .. | .addsReg .. | .subReg .. | .subsReg .. | .andReg .. | .bicReg .. | .orrReg .. | .ornReg .. => False
  | .eorReg .. | .eonReg .. | .andsReg .. | .bicsReg .. | .madd .. | .msub .. => False
  | .strUnsigned .. | .ldrUnsigned .. | .strPre .. | .ldrPre .. | .strPost .. | .ldrPost .. => False
  | .strReg .. | .ldrReg .. | .ldrLit .. | .halt => False

/-! ## The loop -/

/-- The machine fetches in its next step: it has not stopped, and pc is in bounds and aligned (46_step.md R169). -/
structure Fetches (s : State) : Prop where
  running : s.stop = .none
  inBounds : s.pc.toNat + 4 ≤ Config.memSize
  aligned : s.pc.toNat % 4 = 0

/-- The word the four bytes at pc make (20_memory.md R46). -/
def wordAtPc (s : State) : InsnWord :=
  BitVec.ofNat 32 (bytesVal s s.pc.toNat 4)

/-- A stop that changes nothing but `stop` and appends `ds` to the log (60_exceptions.md R181). -/
def stopped (s : State) (r : StopReason) (ds : List Diag) : State :=
  { s with stop := r, diagLog := s.diagLog ++ ds }

/-! ## The invariant -/

/-- Why the machine stopped can be read off its state: the pc, the word at it, and the last diagnostic
(46_step.md R169 to R175; 60_exceptions.md R179). -/
def StopExplained (s : State) : Prop :=
  match s.stop with
  | .none => True
  | .pcOob => Config.memSize < s.pc.toNat + 4 ∧ s.diagLog.getLast? = some (.pcOob s.pc)
  | .pcMisaligned =>
    s.pc.toNat + 4 ≤ Config.memSize ∧ s.pc.toNat % 4 ≠ 0 ∧ s.diagLog.getLast? = some (.pcMisaligned s.pc)
  | .undefinedInsn =>
    s.pc.toNat + 4 ≤ Config.memSize ∧ s.pc.toNat % 4 = 0 ∧
      decode s.params.haltWord (wordAtPc s) = .unknown (wordAtPc s) ∧
      s.diagLog.getLast? = some (.undefinedInsn s.pc (wordAtPc s))
  | .halt => s.pc.toNat + 4 ≤ Config.memSize ∧ s.pc.toNat % 4 = 0 ∧ wordAtPc s = s.params.haltWord
  | .stuckPc =>
    s.pc.toNat + 4 ≤ Config.memSize ∧ s.pc.toNat % 4 = 0 ∧
      ∃ i, decode s.params.haltWord (wordAtPc s) = .instr i ∧ i.family = .branch

/-- The machine's invariant. -/
structure Inv (s : State) : Prop where
  /-- Memory is canonical and inside [0, MEM_SIZE) (20_memory.md R35). -/
  mem : s.mem.wf = true
  /-- The report of the pc is kept from no instruction to the next (10_state.md R26). -/
  report : s.pcWritten = false
  /-- Every peripheral event is of an address in `PERIPH_RANGE`, and a 4-byte one has a 32-bit value (20_memory.md R47). -/
  events : ∀ e ∈ s.periphEvents, inPeriph s e.addr ∧ e.value.toNat < 2 ^ e.size.bits
  /-- The resolver's invalid-mode case never arose (41_addressing.md R113). -/
  resolver : ∀ pc w, Diag.resolverInconsistent pc w ∉ s.diagLog
  /-- A stop agrees with the rest of the state. -/
  stop : StopExplained s

end Sys2Proof.Safety
end

