-- ==== Sys2Proof/Certificates/Slice0/Obligations.lean ====
section
/-! DEFINITION. The statements for the provers. The terms they use are those of Sys2Proof/Safety.lean. Where a docstring
names a decision Dn, the clause follows a choice the spec marks as its own (92_eei_decisions.md). -/

open Sys2Proof Sys2Proof.Machine Sys2Proof.Safety

/-! ## Encoding -/

/-- Words the spec writes out (42_dp_immediate.md, 43_dp_register.md, 44_load_store.md, 45_branch.md) decode to the
instructions it says they are, one or more of each family, and words it calls UNKNOWN decode to UNKNOWN. -/
def Obligations.SampleWordsDecodeToTheirInstructions : Prop :=
  decode Config.defaultHaltWord 0x91000420#32 = .instr (.addImm .x false 1#12 1#5 0#5) ∧
  decode Config.defaultHaltWord 0x51400420#32 = .instr (.subImm .w true 1#12 1#5 0#5) ∧
  decode Config.defaultHaltWord 0xF2B7DDE0#32 = .instr (.movk .x 1#2 0xBEEF#16 0#5) ∧
  decode Config.defaultHaltWord 0x2B027C20#32 = .instr (.addsReg .w .lsl 2#5 31#6 1#5 0#5) ∧
  decode Config.defaultHaltWord 0xCAC21020#32 = .instr (.eorReg .x .ror 2#5 4#6 1#5 0#5) ∧
  decode Config.defaultHaltWord 0x9B028C20#32 = .instr (.msub .x 2#5 3#5 1#5 0#5) ∧
  decode Config.defaultHaltWord 0xF9400420#32 = .instr (.ldrUnsigned .x 1#12 1#5 0#5) ∧
  decode Config.defaultHaltWord 0xF81F0C20#32 = .instr (.strPre .x 0x1F0#9 1#5 0#5) ∧
  decode Config.defaultHaltWord 0xF8408420#32 = .instr (.ldrPost .x 8#9 1#5 0#5) ∧
  decode Config.defaultHaltWord 0xB8226820#32 = .instr (.strReg .w 2#5 1#5 0#5) ∧
  decode Config.defaultHaltWord 0x18000040#32 = .instr (.ldrLit .w 2#19 0#5) ∧
  decode Config.defaultHaltWord 0x17FFFFFF#32 = .instr (.b 0x3FFFFFF#26) ∧
  decode Config.defaultHaltWord 0xD61F0020#32 = .instr (.br 1#5) ∧
  decode Config.defaultHaltWord 0x54FFFFE0#32 = .instr (.bCond 0x7FFFF#19 .eq) ∧
  decode Config.defaultHaltWord 0x8A000000#32 = .instr .halt ∧
  decode Config.defaultHaltWord 0x8A000001#32 = .instr (.andReg .x .lsl 0#5 0#6 0#5 1#5) ∧
  decode Config.defaultHaltWord 0x8BC00000#32 = .unknown 0x8BC00000#32 ∧
  decode Config.defaultHaltWord 0xD503201F#32 = .unknown 0xD503201F#32

/-- R92: for every row of the opcode table and all field values that meet its side conditions, decoding the encoded word
gives back the instruction with the same fields. For every value of the parameter HALT_WORD. -/
def Obligations.DecodeOfEncodeIsTheInstruction : Prop :=
  ∀ (haltWord : InsnWord) (i : Instr), i.encodable haltWord = true → decode haltWord (encode haltWord i) = .instr i

/-- 30_encoding.md §2, which the spec marks as derived: a word that decodes to an instruction is that instruction's one word, with the
row's side conditions met; so no word has two meanings and no bit of it is ignored. -/
def Obligations.EncodeOfDecodeIsTheWord : Prop :=
  ∀ (haltWord w : InsnWord) (i : Instr), decode haltWord w = .instr i →
    i.encodable haltWord = true ∧ encode haltWord i = w

/-- 30_encoding.md §9, decision D3: UNKNOWN(w) is the verdict of exactly the words that are no instruction's. -/
def Obligations.UnknownAreExactlyTheWordsOfNoInstruction : Prop :=
  ∀ (haltWord w u : InsnWord), decode haltWord w = .unknown u ↔
    u = w ∧ ∀ i : Instr, i.encodable haltWord = true → encode haltWord i ≠ w

/-- 30_encoding.md §2, which the spec marks as derived: the rows of spec/opcode_table.json are pairwise disjoint once HALT is taken
first: the word of an instruction meets the mask and match of its own row and of no other. -/
def Obligations.OpcodeTableRowsAreDisjoint : Prop :=
  ∀ (haltWord : InsnWord) (i j : Instr), i.encodable haltWord = true → i ≠ .halt →
    (encode haltWord i &&& j.tableMask = j.tableMatch haltWord ↔
      j.tableMask = i.tableMask ∧ j.tableMatch haltWord = i.tableMatch haltWord)

/-- 30_encoding.md §3 (decision D2 for the parameter): the sentinel word, and no other, decodes to HALT, whatever family it looks like. -/
def Obligations.HaltWordIsDecodedBeforeTheFamilies : Prop :=
  ∀ haltWord w : InsnWord, decode haltWord w = .instr .halt ↔ w = haltWord

/-! ## The step -/

/-- A step runs the decoded instruction: when the word at pc decodes to `i`, the step's state is `exec i`'s with what the
loop adds (46_step.md §2, decisions D13 and D14; the model's own choices of assumption log 7 and 8): HALT stops without the advance; a branch that left pc where it was stops
with STUCK_PC; a branch that moved it adds nothing; every other instruction advances pc by 4. -/
def Obligations.StepRunsTheDecodedInstruction : Prop :=
  ∀ (s t : State) (i : Instr), Fetches s → decode s.params.haltWord (wordAtPc s) = .instr i → exec i s = .next t →
    (i = .halt → step s = .next { t with stop := .halt, pcWritten := false }) ∧
    (i ≠ .halt → t.pcWritten = true → t.pc = s.pc →
      step s = .next { t with stop := .stuckPc, pcWritten := false }) ∧
    (i ≠ .halt → t.pcWritten = true → t.pc ≠ s.pc → step s = .next { t with pcWritten := false }) ∧
    (i ≠ .halt → t.pcWritten = false → step s = .next { t with pc := s.pc + 4#64, pcWritten := false })

/-- R170: a stopped machine does not change, in one step or in any number of steps. -/
def Obligations.StoppedMachineNeverChanges : Prop :=
  ∀ (s : State) (k : Nat), s.stop ≠ .none → step s = .next s ∧ run k s = .next s

/-- The pc checks and their order (46_step.md §2, decisions D15, D32, D33): a pc whose four bytes do not all lie in memory
stops with PC_OOB, aligned or not; otherwise a misaligned one stops with PC_MISALIGNED. Each records its diagnostic and
changes nothing else. -/
def Obligations.PcChecksStopInTheirOrder : Prop :=
  ∀ s : State, s.stop = .none →
    (Config.memSize < s.pc.toNat + 4 → step s = .next (stopped s .pcOob [.pcOob s.pc])) ∧
    (s.pc.toNat + 4 ≤ Config.memSize → s.pc.toNat % 4 ≠ 0 →
      step s = .next (stopped s .pcMisaligned [.pcMisaligned s.pc]))

/-- A misaligned pc inside memory is not fetched from, the run stops; B and B.cond offsets are multiples of 4, and only a
BR makes an aligned pc misaligned (20_memory.md §3; decision D33 for a pc out of memory, D35 for BR). -/
def Obligations.MisalignedPcStopsAndOnlyBrMakesOne : Prop :=
  (∀ s : State, s.stop = .none → s.pc.toNat + 4 ≤ Config.memSize → s.pc.toNat % 4 ≠ 0 →
    ∃ t, step s = .next t ∧ t.stop = .pcMisaligned ∧ t.regs = s.regs ∧ t.flags = s.flags ∧ t.mem = s.mem ∧
      t.pc = s.pc ∧ t.periphEvents = s.periphEvents) ∧
  (∀ simm26 : BitVec 26, (wordOffset simm26).toNat % 4 = 0) ∧
  (∀ simm19 : BitVec 19, (wordOffset simm19).toNat % 4 = 0) ∧
  (∀ s t : State, Fetches s → step s = .next t → t.pc.toNat % 4 ≠ 0 →
    ∃ rn, decode s.params.haltWord (wordAtPc s) = .instr (.br rn) ∧ rn ≠ zeroReg ∧ t.pc = s.x rn)

/-- The word at pc decodes to UNKNOWN: the step records it and stops with UNDEFINED, changing nothing else
(46_step.md §2, decision D4). -/
def Obligations.UnknownWordStopsTheRun : Prop :=
  ∀ (s : State) (u : InsnWord), Fetches s → decode s.params.haltWord (wordAtPc s) = .unknown u →
    step s = .next (stopped s .undefinedInsn [.undefinedInsn s.pc (wordAtPc s)])

/-- The word at pc is HALT_WORD: the step stops with HALT, records nothing and leaves pc at the HALT word
(45_branch.md §2, decision D14). -/
def Obligations.HaltStopsTheRunAtItsOwnAddress : Prop :=
  ∀ s : State, Inv s → Fetches s → wordAtPc s = s.params.haltWord → step s = .next (stopped s .halt [])

/-- The stuck-PC guard sees exactly the self-branches: `b .`, a taken `b.cond .`, `br xzr` and a BR to its own address;
each stops the run with STUCK_PC, without a diagnostic, and changes nothing else (46_step.md §2, decisions D12, D13). -/
def Obligations.ExactlySelfBranchesStick : Prop :=
  ∀ (s : State) (i : Instr), Inv s → Fetches s → decode s.params.haltWord (wordAtPc s) = .instr i →
    ((i = .b 0#26 ∨ (∃ c, i = .bCond 0#19 c ∧ condMeans c s.flags) ∨ i = .br zeroReg ∨
        ∃ rn, i = .br rn ∧ s.x rn = s.pc) →
      step s = .next (stopped s .stuckPc [])) ∧
    (∀ t, step s = .next t → t.stop = .stuckPc →
      i = .b 0#26 ∨ (∃ c, i = .bCond 0#19 c ∧ condMeans c s.flags) ∨ i = .br zeroReg ∨
        ∃ rn, i = .br rn ∧ s.x rn = s.pc)

/-! ## Rules of the whole machine -/

/-- No instruction and no step faults or is refused; every state has a next state (60_exceptions.md §1, by the model's
reading of it, assumption log 11). -/
def Obligations.EveryStepAnswersANextState : Prop :=
  ∀ s : State, (∃ t, step s = .next t) ∧ ∀ i : Instr, ∃ t, exec i s = .next t

/-- 60_exceptions.md §2, which the spec marks as derived there: a step that stops the machine leaves the registers, flags, memory, pc and
peripheral events as they were, and the log grows by at most one entry. -/
def Obligations.StopsArePrecise : Prop :=
  ∀ s t : State, s.stop = .none → step s = .next t → t.stop ≠ .none →
    (∀ r, t.x r = s.x r) ∧ t.flags = s.flags ∧ (∀ a, t.mem.read a = s.mem.read a) ∧ t.pc = s.pc ∧
      t.periphEvents = s.periphEvents ∧ t.params = s.params ∧
      ∃ ds, t.diagLog = s.diagLog ++ ds ∧ ds.length ≤ 1

/-- The list of abnormal events (60_exceptions.md §2, decisions D14 and D24): a step records at most one diagnostic; each
goes with its stop, or with the run going on, and with its cause; a step never records RESOLVER_INCONSISTENT, which the
decoder makes unreachable (41_addressing.md, R113, decision D27), nor IMAGE_TRUNCATED, which belongs to the boot. -/
def Obligations.StepRecordsAtMostOneDiagnostic : Prop :=
  ∀ s t : State, s.stop = .none → step s = .next t →
    t.diagLog = s.diagLog ∨
    ∃ d, t.diagLog = s.diagLog ++ [d] ∧
      match d with
      | .oobLoad a n => t.stop = .none ∧ Config.memSize < a.toNat + n.bytes
      | .oobStore a n => t.stop = .none ∧ Config.memSize < a.toNat + n.bytes ∧ ¬ inPeriph s a
      | .pcOob p => t.stop = .pcOob ∧ p = s.pc ∧ Config.memSize < p.toNat + 4
      | .pcMisaligned p => t.stop = .pcMisaligned ∧ p = s.pc ∧ p.toNat % 4 ≠ 0
      | .undefinedInsn p w => t.stop = .undefinedInsn ∧ p = s.pc ∧ w = wordAtPc s
      | .resolverInconsistent _ _ => False
      | .imageTruncated _ => False

/-- `diag_log` and `periph_events` are append-only along every run (10_state.md §4, decisions D19 and D24). -/
def Obligations.LogsOnlyGrowAlongARun : Prop :=
  ∀ (k : Nat) (s t : State), run k s = .next t →
    s.diagLog <+: t.diagLog ∧ s.periphEvents <+: t.periphEvents

/-- Every step keeps the model's invariant (assumption log 7, 13 and 30): memory stays canonical and inside its bounds, the report of the pc is not kept, every
peripheral event is of an address in PERIPH_RANGE, the resolver's invalid-mode case never arises, and a stop agrees with
the pc, the word at it and the last diagnostic. -/
def Obligations.InvariantKeptByEveryStep : Prop :=
  ∀ s t : State, Inv s → step s = .next t → Inv t

/-- The model's invariant holds at reset (assumption log 2, 5 and 6 for the values the model has there). -/
def Obligations.InvariantHoldsAtReset : Prop :=
  Inv State.reset

/-- The model's invariant holds after reset with any image and any parameters (70_reset_and_hazards.md §1, decision D26;
assumption log 9). -/
def Obligations.InvariantHoldsAfterBoot : Prop :=
  ∀ (p : Params) (image : List Byte), Inv (State.boot p image)

/-- The parameters HALT_WORD and PERIPH_RANGE are fixed during a run: the host has no move (60_exceptions.md §6, decision
D30), and no instruction writes them (they are fields of the model's state by its own choice, assumption log 1). -/
def Obligations.NoStepChangesTheParameters : Prop :=
  ∀ (k : Nat) (s t : State), run k s = .next t → t.params = s.params

/-- R25: the flags at reset; only the listed instructions change them; a writer writes all four, whatever they held; and
only B.cond reads them: what every other instruction does to the rest of the state does not depend on them. -/
def Obligations.FlagsAreWrittenAndReadOnlyWhereListed : Prop :=
  State.reset.flags = { n := false, z := true, c := false, v := false } ∧
  ∀ (i : Instr) (s : State) (f : Flags), ∃ t u,
    exec i s = .next t ∧ exec i { s with flags := f } = .next u ∧
    (flagWriter i = false → t.flags = s.flags) ∧
    (flagWriter i = true → u.flags = t.flags) ∧
    (flagReader i = false → { u with flags := t.flags } = t)

/-- Execution reports that it wrote pc exactly for B, BR (`br xzr` too, decision D12) and a taken B.cond; the report does
not depend on what it held before, and is not kept from one instruction to the next (10_state.md §4; that the report is a
field of State is the model's choice, assumption log 7). -/
def Obligations.OnlyBranchesReportThatTheyWrotePc : Prop :=
  (∀ (i : Instr) (s : State) (p : Bool), ∃ t, exec i s = .next t ∧ exec i { s with pcWritten := p } = .next t ∧
    (t.pcWritten = true ↔ writesPc i s)) ∧
  (∀ s t : State, s.pcWritten = false → step s = .next t → t.pcWritten = false)

/-- The table of 10_state.md §1, which the spec marks as derived: an instruction changes no general register but those it is listed to write, and
what it does depends on no general register but those it is listed to read: changing any other one changes no other
register's outcome, no flag, no byte, not the pc, no log. -/
def Obligations.RegistersReadAndWrittenAreTheListedOnes : Prop :=
  ∀ (i : Instr) (s : State) (r : RegIdx) (v : Word), ∃ t u,
    exec i s = .next t ∧ exec i (s.setX r v) = .next u ∧
    (r ∉ destRegs i → t.x r = s.x r) ∧
    (r ∉ sourceRegs i →
      (∀ q, q ≠ r ∨ r ∈ destRegs i → u.x q = t.x q) ∧
      u.flags = t.flags ∧ u.pc = t.pc ∧ u.pcWritten = t.pcWritten ∧ u.mem = t.mem ∧
      u.periphEvents = t.periphEvents ∧ u.diagLog = t.diagLog ∧ u.stop = t.stop ∧ u.params = t.params)

/-! ## Data processing -/

/-- ADD, ADDS, SUB and SUBS (immediate) (42_dp_immediate.md §1, §2; that ADD and SUB write no flags with rd = 31 is the
spec's own decision D18, that 32-bit forms compute 32-bit flags its decision D31). Every state and operand completes; the result goes to rd
(nowhere when rd is 31) zero-extended; ADDS and SUBS write the four flags, ADD and SUB none; nothing else changes. -/
def Obligations.AddSubImmediateResult : Prop :=
  ∀ (s : State) (sz : OpSize) (sh : Bool) (imm12 : BitVec 12) (rn rd : RegIdx),
    let a := val s rn sz
    let b := imm12.toNat * (if sh then 4096 else 1)
    WritesRegister (.addImm sz sh imm12 rn rd) s rd (sumMod sz.bits a b) s.flags ∧
    WritesRegister (.addsImm sz sh imm12 rn rd) s rd (sumMod sz.bits a b) (sumFlags sz.bits a b) ∧
    WritesRegister (.subImm sz sh imm12 rn rd) s rd (diffMod sz.bits a b) s.flags ∧
    WritesRegister (.subsImm sz sh imm12 rn rd) s rd (diffMod sz.bits a b) (diffFlags sz.bits a b)

/-- R122, R123: MOVZ and MOVN, in every form their encoding admits (32-bit ones with hw 0 or 1, R62 and R121). -/
def Obligations.MoveZeroAndMoveNotResult : Prop :=
  ∀ (s : State) (sz : OpSize) (hw : BitVec 2) (imm16 : BitVec 16) (rd : RegIdx), wideOk sz hw = true →
    let v := imm16.toNat * 2 ^ (16 * hw.toNat) % 2 ^ sz.bits
    WritesRegister (.movz sz hw imm16 rd) s rd v s.flags ∧
    WritesRegister (.movn sz hw imm16 rd) s rd (notMod sz.bits v) s.flags

/-- MOVK (42_dp_immediate.md §3; the spec marks what a 32-bit one does to bits 63..32 as derived): the addressed 16-bit
lane is replaced, the lanes below and above it (within the width) keep the destination's old bits. -/
def Obligations.MoveKeepResult : Prop :=
  ∀ (s : State) (sz : OpSize) (hw : BitVec 2) (imm16 : BitVec 16) (rd : RegIdx), wideOk sz hw = true →
    let old := val s rd sz
    let lo := 2 ^ (16 * hw.toNat)
    let hi := 2 ^ (16 * hw.toNat + 16)
    WritesRegister (.movk sz hw imm16 rd) s rd (old / hi * hi + imm16.toNat * lo + old % lo) s.flags

/-- ADD, ADDS, SUB and SUBS (shifted register) (43_dp_register.md §1, §2; 90_conflicts.md C3 for rd = 31, decision D31 for
the 32-bit flags). The second operand is the shifted rm at the instruction's width; ADDS and SUBS write the four flags
always, ADD and SUB exactly when rd is index 31. The rules R65 and R125 keep ROR and 32-bit amounts of 32 or more from these
instructions: that they run there by the same formulas is the model's choice (assumption log 30), with LSL and LSR by the
width or more giving 0 by the spec's own decision D16 (assumption log 14). -/
def Obligations.AddSubRegisterResult : Prop :=
  ∀ (s : State) (sz : OpSize) (type : ShiftType) (rm : RegIdx) (imm6 : BitVec 6) (rn rd : RegIdx),
    let a := val s rn sz
    let b := shiftedVal s sz type rm imm6
    WritesRegister (.addReg sz type rm imm6 rn rd) s rd (sumMod sz.bits a b)
      (if rd = zeroReg then sumFlags sz.bits a b else s.flags) ∧
    WritesRegister (.addsReg sz type rm imm6 rn rd) s rd (sumMod sz.bits a b) (sumFlags sz.bits a b) ∧
    WritesRegister (.subReg sz type rm imm6 rn rd) s rd (diffMod sz.bits a b)
      (if rd = zeroReg then diffFlags sz.bits a b else s.flags) ∧
    WritesRegister (.subsReg sz type rm imm6 rn rd) s rd (diffMod sz.bits a b) (diffFlags sz.bits a b)

/-- The eight logical operations (43_dp_register.md §3). C and V are written 0 by the spec's own decision D17; the forms
without S write flags exactly when rd is index 31 (90_conflicts.md C3). The rules R66 and R125 keep 32-bit amounts of 32 or
more from these instructions: that they run there by the same formulas is the model's choice (assumption log 30), with LSL
and LSR by the width or more giving 0 by the spec's own decision D16 (assumption log 14). -/
def Obligations.LogicalRegisterResult : Prop :=
  ∀ (s : State) (sz : OpSize) (type : ShiftType) (rm : RegIdx) (imm6 : BitVec 6) (rn rd : RegIdx),
    let a := val s rn sz
    let b := shiftedVal s sz type rm imm6
    let nb := notMod sz.bits b
    let w := sz.bits
    let unlessS := fun r => if rd = zeroReg then resultFlags w r else s.flags
    WritesRegister (.andReg sz type rm imm6 rn rd) s rd (a &&& b) (unlessS (a &&& b)) ∧
    WritesRegister (.bicReg sz type rm imm6 rn rd) s rd (a &&& nb) (unlessS (a &&& nb)) ∧
    WritesRegister (.orrReg sz type rm imm6 rn rd) s rd (a ||| b) (unlessS (a ||| b)) ∧
    WritesRegister (.ornReg sz type rm imm6 rn rd) s rd (a ||| nb) (unlessS (a ||| nb)) ∧
    WritesRegister (.eorReg sz type rm imm6 rn rd) s rd (a ^^^ b) (unlessS (a ^^^ b)) ∧
    WritesRegister (.eonReg sz type rm imm6 rn rd) s rd (a ^^^ nb) (unlessS (a ^^^ nb)) ∧
    WritesRegister (.andsReg sz type rm imm6 rn rd) s rd (a &&& b) (resultFlags w (a &&& b)) ∧
    WritesRegister (.bicsReg sz type rm imm6 rn rd) s rd (a &&& nb) (resultFlags w (a &&& nb))

/-- R142, R143, R144: MADD and MSUB: accumulator plus or minus the product, modulo 2^W, with the unshifted operands at the
instruction's width, and never a flag, not even with rd = 31. -/
def Obligations.MultiplyResult : Prop :=
  ∀ (s : State) (sz : OpSize) (rm ra rn rd : RegIdx),
    let p := val s rn sz * val s rm sz % 2 ^ sz.bits
    WritesRegister (.madd sz rm ra rn rd) s rd (sumMod sz.bits (val s ra sz) p) s.flags ∧
    WritesRegister (.msub sz rm ra rn rd) s rd (diffMod sz.bits (val s ra sz) p) s.flags

/-- The adder's flags mean what A64's AddWithCarry gives (42_dp_immediate.md §1, which the spec marks as general
knowledge; decision D31 for the 32-bit flags): C is the carry out of a + b, or of a + NOT b + 1, V is signed overflow, N the sign and Z the zero test. -/
def Obligations.AdderFlagsAreCarryAndSignedOverflow : Prop :=
  ∀ (sz : OpSize) (a b : BitVec sz.bits),
    let w := sz.bits
    let f := (addSub a b false).2
    let g := (addSub a b true).2
    (f.c = true ↔ 2 ^ w ≤ a.toNat + b.toNat) ∧
    (f.v = true ↔ a.toInt + b.toInt < -2 ^ (w - 1) ∨ 2 ^ (w - 1) ≤ a.toInt + b.toInt) ∧
    (f.n = true ↔ (a + b).toInt < 0) ∧ (f.z = true ↔ (a + b).toNat = 0) ∧
    (g.c = true ↔ 2 ^ w ≤ a.toNat + (~~~ b).toNat + 1) ∧
    (g.v = true ↔ a.toInt - b.toInt < -2 ^ (w - 1) ∨ 2 ^ (w - 1) ≤ a.toInt - b.toInt) ∧
    (g.n = true ↔ (a - b).toInt < 0) ∧ (g.z = true ↔ a = b)

/-! ## The Shift Engine -/

/-- R101, R102: ASR and ROR at every amount, on the value truncated to the width. -/
def Obligations.AsrAndRorFollowTheRules : Prop :=
  ∀ (value : Word) (amount : Nat) (sz : OpSize),
    (shift value amount .asr sz).toNat = shiftMod sz.bits (value.toNat % 2 ^ sz.bits) amount .asr ∧
    (shift value amount .ror sz).toNat = shiftMod sz.bits (value.toNat % 2 ^ sz.bits) amount .ror

/-- LSL and LSR at every amount, on the value truncated to the width; an amount of the width or more gives 0 by the spec's
own decision D16 (40_shift_engine.md; assumption log 14). -/
def Obligations.LogicalShiftsFollowTheRules : Prop :=
  ∀ (value : Word) (amount : Nat) (sz : OpSize),
    (shift value amount .lsl sz).toNat = shiftMod sz.bits (value.toNat % 2 ^ sz.bits) amount .lsl ∧
    (shift value amount .lsr sz).toNat = shiftMod sz.bits (value.toNat % 2 ^ sz.bits) amount .lsr

/-- R104: the required properties of the Shift Engine. -/
def Obligations.ShiftEngineRequiredProperties : Prop :=
  (∀ x : Word, shift x 0 .ror .x = x ∧ (shift x 0 .ror .w).toNat = x.toNat % 2 ^ 32) ∧
  (∀ (x : Word) (sz : OpSize) (k : Nat), k < sz.bits →
    (shift (shift x k .lsl sz) k .lsr sz).toNat = x.toNat % 2 ^ sz.bits % 2 ^ (sz.bits - k)) ∧
  (∀ x : Word, x.getLsbD 63 = true → shift x 63 .asr .x = 0xFFFFFFFFFFFFFFFF#64)

/-! ## Immediates and addressing -/

/-- R80: sign extension of simm9, simm19 and simm26 to 64 bits. -/
def Obligations.SignedFieldsAreSignExtended : Prop :=
  (∀ v : BitVec 9, (sext v).toNat = sextMod v) ∧
  (∀ v : BitVec 19, (sext v).toNat = sextMod v) ∧
  (∀ v : BitVec 26, (sext v).toNat = sextMod v)

/-- R82, R83: simm19 and simm26 are word offsets: four times the sign-extended field modulo 2^64, with their byte ranges. -/
def Obligations.WordOffsetsAreFourTimesTheField : Prop :=
  (∀ v : BitVec 19, (wordOffset v).toNat = sextMod v * 4 % 2 ^ 64 ∧
    -2 ^ 20 ≤ (wordOffset v).toInt ∧ (wordOffset v).toInt ≤ 2 ^ 20 - 4) ∧
  (∀ v : BitVec 26, (wordOffset v).toNat = sextMod v * 4 % 2 ^ 64 ∧
    -2 ^ 27 ≤ (wordOffset v).toInt ∧ (wordOffset v).toInt ≤ 2 ^ 27 - 4)

/-- R84, R85, R86: the arithmetic immediate, the scaled unsigned offset and the wide-move operand, with their ranges. -/
def Obligations.UnsignedImmediatesAreScaled : Prop :=
  (∀ (sz : OpSize) (sh : Bool) (imm12 : BitVec 12),
    (arithImm sz sh imm12).toNat = imm12.toNat * 2 ^ (12 * sh.toNat) ∧ (arithImm sz sh imm12).toNat ≤ 0xFFF000) ∧
  (∀ imm12 : BitVec 12,
    (unsignedOffset .x imm12).toNat = imm12.toNat * 8 ∧ (unsignedOffset .x imm12).toNat ≤ 32760 ∧
    (unsignedOffset .w imm12).toNat = imm12.toNat * 4 ∧ (unsignedOffset .w imm12).toNat ≤ 16380) ∧
  (∀ (sz : OpSize) (hw : BitVec 2) (imm16 : BitVec 16), wideOk sz hw = true →
    (wideImm sz hw imm16).toNat = imm16.toNat * 2 ^ (16 * hw.toNat))

/-- The resolver's addresses and write-backs in all six modes (41_addressing.md; decisions D10, D11, D25, D28, D29): the
base and the offset register at 64 bits, sums modulo 2^64, a write-back in the pre- and post-indexed modes alone, and
ZERO_OFFSET the address of UNSIGNED_OFFSET with imm12 = 0. -/
def Obligations.ResolverAddressesAndWriteBacks : Prop :=
  ∀ (s : State) (sz : OpSize) (rn rm : RegIdx) (imm12 : BitVec 12) (simm9 : BitVec 9) (simm19 : BitVec 19),
    s.resolve (.mk .zeroOffset sz (some rn) .none) = s.resolve (.mk .unsignedOffset sz (some rn) (.imm12 0#12)) ∧
    (∃ a, s.resolve (.mk .unsignedOffset sz (some rn) (.imm12 imm12)) = some (a, s) ∧
      a.toNat = ((s.x rn).toNat + imm12.toNat * sz.bytes) % 2 ^ 64) ∧
    (∃ a t, s.resolve (.mk .preIndexed sz (some rn) (.simm9 simm9)) = some (a, t) ∧
      a.toNat = ((s.x rn).toNat + sextMod simm9) % 2 ^ 64 ∧
      t = { s with regs := t.regs } ∧ ∀ r, t.x r = if r = rn ∧ r ≠ zeroReg then a else s.x r) ∧
    (∃ t, s.resolve (.mk .postIndexed sz (some rn) (.simm9 simm9)) = some (s.x rn, t) ∧
      t = { s with regs := t.regs } ∧
      ∀ r, (t.x r).toNat =
        if r = rn ∧ r ≠ zeroReg then ((s.x rn).toNat + sextMod simm9) % 2 ^ 64 else (s.x r).toNat) ∧
    (∃ a, s.resolve (.mk .registerOffset sz (some rn) (.reg rm)) = some (a, s) ∧
      a.toNat = ((s.x rm).toNat + (s.x rn).toNat) % 2 ^ 64) ∧
    (∃ a, s.resolve (.mk .loadLiteral sz none (.simm19 simm19)) = some (a, s) ∧
      a.toNat = (s.pc.toNat + sextMod simm19 * 4) % 2 ^ 64)

/-- The resolver's invalid-mode case (41_addressing.md, decision D27; what word is recorded is the model's own choice,
assumption log 13): load-literal with a base register, or another mode without one, has no address; a load or store so
asked records RESOLVER_INCONSISTENT and does nothing else. -/
def Obligations.InvalidModeRecordsAndDoesNothingElse : Prop :=
  ∀ (s : State) (q : AddrQuery) (rt : RegIdx),
    (q.mode = .loadLiteral → q.base ≠ none → s.resolve q = none) ∧
    (q.mode ≠ .loadLiteral → q.base = none → s.resolve q = none) ∧
    (s.resolve q = none →
      s.load q rt =
        { s with diagLog := s.diagLog ++ [.resolverInconsistent s.pc (wordAtPc s)], pcWritten := false } ∧
      s.store q rt =
        { s with diagLog := s.diagLog ++ [.resolverInconsistent s.pc (wordAtPc s)], pcWritten := false })

/-! ## Memory -/

/-- R44: MemRead. -/
def Obligations.MemReadGivesTheLittleEndianSum : Prop :=
  ∀ (s : State) (a : Word) (sz : OpSize),
    (a.toNat + sz.bytes ≤ Config.memSize →
      (s.memRead a sz).1.toNat = bytesVal s a.toNat sz.bytes ∧ (s.memRead a sz).2 = s) ∧
    (Config.memSize < a.toNat + sz.bytes →
      s.memRead a sz = (0#64, { s with diagLog := s.diagLog ++ [.oobLoad a sz] }))

/-- R45: MemWrite. Byte k of the value goes to address a + k, every other byte and everything else keeps its value,
and memory stays canonical; out of bounds no byte changes and a diagnostic is recorded. -/
def Obligations.MemWriteStoresTheLittleEndianBytes : Prop :=
  ∀ (s : State) (a : Word) (sz : OpSize) (v : Word), s.mem.wf = true →
    (a.toNat + sz.bytes ≤ Config.memSize →
      (∀ k, k < sz.bytes → (s.memWrite a sz v).mem.read (a.toNat + k) = v.extractLsb' (8 * k) 8) ∧
      (∀ c, c < a.toNat ∨ a.toNat + sz.bytes ≤ c → (s.memWrite a sz v).mem.read c = s.mem.read c) ∧
      s.memWrite a sz v = { s with mem := (s.memWrite a sz v).mem } ∧ (s.memWrite a sz v).mem.wf = true) ∧
    (Config.memSize < a.toNat + sz.bytes →
      s.memWrite a sz v = { s with diagLog := s.diagLog ++ [.oobStore a sz] })

/-- A load gives the bytes of the latest store to them (20_memory.md §6, decision D21) and accesses of both widths see the
same bytes (20_memory.md §2, which the spec marks as derived). -/
def Obligations.LoadReturnsWhatWasStored : Prop :=
  ∀ (s : State) (a b : Word) (sz sz' : OpSize) (v : Word), s.mem.wf = true →
    a.toNat + sz.bytes ≤ Config.memSize →
    ((s.memWrite a sz v).memRead a sz).1.toNat = v.toNat % 2 ^ sz.bits ∧
    (b.toNat + sz'.bytes ≤ a.toNat ∨ a.toNat + sz.bytes ≤ b.toNat →
      ((s.memWrite a sz v).memRead b sz').1 = (s.memRead b sz').1) ∧
    (sz = .x →
      ((s.memWrite a .x v).memRead a .w).1.toNat = v.toNat % 2 ^ 32 ∧
      ((s.memWrite a .x v).memRead (a + 4#64) .w).1.toNat = v.toNat / 2 ^ 32)

/-- A store is seen by every later fetch of its bytes, and a store into PERIPH_RANGE changes no fetch (20_memory.md §6,
decision D20). -/
def Obligations.StoreIsSeenByTheNextFetch : Prop :=
  ∀ (s : State) (a : Word) (v : Word), s.mem.wf = true →
    (¬ inPeriph s a → a.toNat + 4 ≤ Config.memSize →
      wordAtPc { s.storeAccess a .w v with pc := a } = v.setWidth 32) ∧
    (∀ (sz : OpSize) (p : Word), inPeriph s a →
      wordAtPc { s.storeAccess a sz v with pc := p } = wordAtPc { s with pc := p })

/-- 60_exceptions.md §5, decision D19: with an empty PERIPH_RANGE the store path is MemWrite, and no run records an event. -/
def Obligations.EmptyPeriphRangeIsPlainMemory : Prop :=
  ∀ s : State, s.params.periphRange = [] →
    (∀ (a : Word) (sz : OpSize) (v : Word), s.storeAccess a sz v = s.memWrite a sz v) ∧
    (∀ (k : Nat) (t : State), run k s = .next t → t.periphEvents = s.periphEvents)

/-! ## Loads and stores -/

/-- LDR (unsigned offset) and LDR (literal) (44_load_store.md §1, §2, §6; decisions D9, D10, D28): the address, the transfer of 4 or 8 bytes with zero extension, 0
and a diagnostic out of bounds, no flag, and nothing else. -/
def Obligations.LoadUnsignedOffsetAndLiteralResult : Prop :=
  ∀ (s : State) (sz : OpSize) (imm12 : BitVec 12) (simm19 : BitVec 19) (rn rt : RegIdx),
    Loads (.ldrUnsigned sz imm12 rn rt) s sz (BitVec.ofNat 64 ((s.x rn).toNat + imm12.toNat * sz.bytes)) none rt ∧
    Loads (.ldrLit sz simm19 rt) s sz (BitVec.ofNat 64 (s.pc.toNat + sextMod simm19 * 4)) none rt

/-- LDR (pre-indexed), LDR (post-indexed) and LDR (register offset) (44_load_store.md §3 to §5, §7; decisions D11, D29,
D34): unscaled offsets, the write-back kept whether or not the access is in bounds, the loaded value winning over it. -/
def Obligations.LoadIndexedAndRegisterOffsetResult : Prop :=
  ∀ (s : State) (sz : OpSize) (simm9 : BitVec 9) (rm rn rt : RegIdx),
    let moved := BitVec.ofNat 64 ((s.x rn).toNat + sextMod simm9)
    Loads (.ldrPre sz simm9 rn rt) s sz moved (some (rn, moved)) rt ∧
    Loads (.ldrPost sz simm9 rn rt) s sz (s.x rn) (some (rn, moved)) rt ∧
    Loads (.ldrReg sz rm rn rt) s sz (BitVec.ofNat 64 ((s.x rn).toNat + (s.x rm).toNat)) none rt

/-- STR (unsigned offset) and STR (register offset) (44_load_store.md §2, §5; decisions D9, D19, D29). The address stored to
is the resolver's expression on the state before. -/
def Obligations.StoreUnsignedAndRegisterOffsetResult : Prop :=
  ∀ (s : State) (sz : OpSize) (imm12 : BitVec 12) (rm rn rt : RegIdx), s.mem.wf = true →
    Stores (.strUnsigned sz imm12 rn rt) s sz (s.x rn + unsignedOffset sz imm12) none rt ∧
    Stores (.strReg sz rm rn rt) s sz (s.x rm + s.x rn) none rt

/-- STR (pre-indexed) and STR (post-indexed) (44_load_store.md §3, §4, §7; decisions D9, D11, D19, D34): the write-back comes
first, so with rt = rn the updated base is stored. The address stored to is the resolver's expression on the state
before. -/
def Obligations.StoreIndexedResult : Prop :=
  ∀ (s : State) (sz : OpSize) (simm9 : BitVec 9) (rn rt : RegIdx), s.mem.wf = true →
    Stores (.strPre sz simm9 rn rt) s sz (s.x rn + sext simm9) (some (rn, s.x rn + sext simm9)) rt ∧
    Stores (.strPost sz simm9 rn rt) s sz (s.x rn) (some (rn, s.x rn + sext simm9)) rt

/-! ## Branches and HALT -/

/-- B (45_branch.md §2): the pc moves by four times the sign-extended field modulo 2^64, and nothing else changes. -/
def Obligations.UnconditionalBranchResult : Prop :=
  ∀ (s : State) (simm26 : BitVec 26),
    Branches (.b simm26) s ((s.pc.toNat + sextMod simm26 * 4) % 2 ^ 64) true

/-- BR (45_branch.md §2; decisions D12 and D35): any 64-bit target, aligned or not; with rn = 31 the pc stays, and is
reported as written all the same (90_conflicts.md C5). -/
def Obligations.BranchRegisterResult : Prop :=
  ∀ (s : State) (rn : RegIdx),
    Branches (.br rn) s (if rn = zeroReg then s.pc.toNat else (s.x rn).toNat) true

/-- B.cond (45_branch.md §1, §2), taken and not taken, for each of the seven conditions; at reset Z is set, so b.eq is taken. -/
def Obligations.ConditionalBranchResult : Prop :=
  (∀ (s : State) (simm19 : BitVec 19) (c : Cond),
    (condMeans c s.flags → Branches (.bCond simm19 c) s ((s.pc.toNat + sextMod simm19 * 4) % 2 ^ 64) true) ∧
    (¬ condMeans c s.flags → Branches (.bCond simm19 c) s s.pc.toNat false)) ∧
  condMeans .eq State.reset.flags

/-- HALT carries no action of its own: executing it changes nothing and reports that it did not write pc
(45_branch.md §2; that the loop alone stops is the model's reading, assumption log 8). -/
def Obligations.HaltExecutesWithoutEffect : Prop :=
  ∀ s : State, Branches .halt s s.pc.toNat false

/-! ## Registers, reset and the host -/

/-- The register file (10_state.md §1; decision D28 for the roles of index 31): index 31 reads 0, a write of it is discarded,
a 32-bit write zero-extends into the whole register, a 32-bit read sees bits 31..0, and a write changes no other register
and nothing else. -/
def Obligations.RegisterFileReadsAndWrites : Prop :=
  ∀ (s : State) (i r : RegIdx) (sz : OpSize) (v : BitVec sz.bits),
    s.x zeroReg = 0#64 ∧
    ((s.wreg i sz v).x r).toNat = (if r = i ∧ r ≠ zeroReg then v.toNat else (s.x r).toNat) ∧
    (s.xs r sz).toNat = val s r sz ∧
    s.wreg i sz v = { s with regs := (s.wreg i sz v).regs } ∧ s.wreg zeroReg sz v = s

/-- The state after reset with no image (10_state.md §6; the registers, pc and memory by the spec's own decisions D5, D6 and
D7; the parameters by the model's choice, assumption log 1 and 2). -/
def Obligations.ResetLeavesTheSpecifiedState : Prop :=
  (∀ r, State.reset.x r = 0#64) ∧ State.reset.pc = 0#64 ∧
  State.reset.flags = { n := false, z := true, c := false, v := false } ∧
  (∀ a, State.reset.mem.read a = 0#8) ∧ State.reset.pcWritten = false ∧
  State.reset.periphEvents = [] ∧ State.reset.diagLog = [] ∧ State.reset.stop = .none ∧
  State.reset.params.haltWord = 0x8A000000#32 ∧ ∀ a, ¬ inPeriph State.reset a

/-- Reset with an image and parameters (70_reset_and_hazards.md §1; decisions D5 to D7 and D26; assumption log 9): the image's bytes from
address 0, at most MEM_SIZE of them, zeros after it, and a diagnostic exactly where it was too long. -/
def Obligations.BootLoadsTheImage : Prop :=
  ∀ (p : Params) (image : List Byte),
    (∀ a, (State.boot p image).mem.read a = if a < Config.memSize then image.getD a 0#8 else 0#8) ∧
    (State.boot p image).diagLog =
      (if Config.memSize < image.length then [.imageTruncated image.length] else []) ∧
    (State.boot p image).params = p ∧ (∀ r, (State.boot p image).x r = 0#64) ∧ (State.boot p image).pc = 0#64 ∧
    (State.boot p image).flags = { n := false, z := true, c := false, v := false } ∧
    (State.boot p image).stop = .none ∧ (State.boot p image).periphEvents = []

/-- The final-state dump (60_exceptions.md §6, decision D38; its form is the model's choice, assumption log 25): it lists exactly the non-zero aligned words, in increasing
address order, each read little-endian, and the registers X0 to X30 in order. -/
def Obligations.FinalDumpListsExactlyTheNonzeroWords : Prop :=
  ∀ s : State, s.mem.wf = true →
    (∀ (a : Nat) (v : InsnWord), (a, v) ∈ s.dump.words ↔
      a % 4 = 0 ∧ a < Config.memSize ∧ v ≠ 0#32 ∧ v.toNat = bytesVal s a 4) ∧
    s.dump.words.Pairwise (fun p q => p.1 < q.1) ∧
    s.dump.regs = (List.range 31).map (fun k => s.x (BitVec.ofNat 5 k)) ∧ s.dump.pc = s.pc
end

