-- ==== Sys2Proof/Laws/Decode.lean ====
section
/-! SUPPORT. Bits and fields of a word that is put together from parts, and the masks of the opcode table. -/

namespace Sys2Proof

/-- A field inside the high part. -/
theorem field_append_hi {v w : Nat} (x : BitVec v) (y : BitVec w) (lo len : Nat) (h : w ≤ lo) :
    (x ++ y).extractLsb' lo len = x.extractLsb' (lo - w) len :=
  BitVec.extractLsb'_append_eq_of_le h

/-- A field inside the low part. -/
theorem field_append_lo {v w : Nat} (x : BitVec v) (y : BitVec w) (lo len : Nat) (h : lo + len ≤ w) :
    (x ++ y).extractLsb' lo len = y.extractLsb' lo len :=
  BitVec.extractLsb'_append_eq_of_add_le h

/-- A bit of the high part. -/
theorem bit_append_hi {v w : Nat} (x : BitVec v) (y : BitVec w) (i : Nat) (h : w ≤ i) :
    (x ++ y).getLsbD i = x.getLsbD (i - w) := by
  rw [BitVec.getLsbD_append, if_neg (by omega)]

/-- A bit of the low part. -/
theorem bit_append_lo {v w : Nat} (x : BitVec v) (y : BitVec w) (i : Nat) (h : i < w) :
    (x ++ y).getLsbD i = y.getLsbD i := by
  rw [BitVec.getLsbD_append, if_pos h]

/-- The conjunction of two words of two parts, part by part. -/
theorem append_and_append {v w : Nat} (x x' : BitVec v) (y y' : BitVec w) :
    (x ++ y) &&& (x' ++ y') = (x &&& x') ++ (y &&& y') := by
  apply BitVec.eq_of_getLsbD_eq
  intro i _
  simp only [BitVec.getLsbD_and, BitVec.getLsbD_append]
  split <;> rfl

/-- `shiftOfBits` undoes `bitsOfShift` (30_encoding.md R87). -/
@[simp] theorem shiftOfBits_bitsOfShift (s : ShiftType) : shiftOfBits (bitsOfShift s) = s := by
  cases s <;> rfl

/-- `condOfBits` undoes `bitsOfCond` (30_encoding.md R79). -/
@[simp] theorem condOfBits_bitsOfCond (c : Cond) : condOfBits (bitsOfCond c) = some c := by
  cases c <;> rfl

end Sys2Proof
end

