-- ==== Sys2Proof/Laws/State.lean ====
section
/-! SUPPORT. The small lemmas of the state: one per field per update, so that no proof unfolds a record update. -/

namespace Sys2Proof.Machine

variable (s : State)

/-! ### `setFlags` -/

@[simp] theorem State.setFlags_regs (f : Flags) : (s.setFlags f).regs = s.regs := rfl
@[simp] theorem State.setFlags_pc (f : Flags) : (s.setFlags f).pc = s.pc := rfl
@[simp] theorem State.setFlags_flags (f : Flags) : (s.setFlags f).flags = f := rfl
@[simp] theorem State.setFlags_mem (f : Flags) : (s.setFlags f).mem = s.mem := rfl
@[simp] theorem State.setFlags_pcWritten (f : Flags) : (s.setFlags f).pcWritten = s.pcWritten := rfl
@[simp] theorem State.setFlags_periphEvents (f : Flags) : (s.setFlags f).periphEvents = s.periphEvents := rfl
@[simp] theorem State.setFlags_diagLog (f : Flags) : (s.setFlags f).diagLog = s.diagLog := rfl
@[simp] theorem State.setFlags_stop (f : Flags) : (s.setFlags f).stop = s.stop := rfl
@[simp] theorem State.setFlags_params (f : Flags) : (s.setFlags f).params = s.params := rfl
@[simp] theorem State.setFlags_x (f : Flags) (i : RegIdx) : (s.setFlags f).x i = s.x i := rfl

/-! ### `setPc` -/

@[simp] theorem State.setPc_regs (a : Word) : (s.setPc a).regs = s.regs := rfl
@[simp] theorem State.setPc_pc (a : Word) : (s.setPc a).pc = a := rfl
@[simp] theorem State.setPc_flags (a : Word) : (s.setPc a).flags = s.flags := rfl
@[simp] theorem State.setPc_mem (a : Word) : (s.setPc a).mem = s.mem := rfl
@[simp] theorem State.setPc_pcWritten (a : Word) : (s.setPc a).pcWritten = s.pcWritten := rfl
@[simp] theorem State.setPc_periphEvents (a : Word) : (s.setPc a).periphEvents = s.periphEvents := rfl
@[simp] theorem State.setPc_diagLog (a : Word) : (s.setPc a).diagLog = s.diagLog := rfl
@[simp] theorem State.setPc_stop (a : Word) : (s.setPc a).stop = s.stop := rfl
@[simp] theorem State.setPc_params (a : Word) : (s.setPc a).params = s.params := rfl
@[simp] theorem State.setPc_x (a : Word) (i : RegIdx) : (s.setPc a).x i = s.x i := rfl

/-! ### `report` -/

@[simp] theorem State.report_regs (b : Bool) : (s.report b).regs = s.regs := rfl
@[simp] theorem State.report_pc (b : Bool) : (s.report b).pc = s.pc := rfl
@[simp] theorem State.report_flags (b : Bool) : (s.report b).flags = s.flags := rfl
@[simp] theorem State.report_mem (b : Bool) : (s.report b).mem = s.mem := rfl
@[simp] theorem State.report_pcWritten (b : Bool) : (s.report b).pcWritten = b := rfl
@[simp] theorem State.report_periphEvents (b : Bool) : (s.report b).periphEvents = s.periphEvents := rfl
@[simp] theorem State.report_diagLog (b : Bool) : (s.report b).diagLog = s.diagLog := rfl
@[simp] theorem State.report_stop (b : Bool) : (s.report b).stop = s.stop := rfl
@[simp] theorem State.report_params (b : Bool) : (s.report b).params = s.params := rfl
@[simp] theorem State.report_x (b : Bool) (i : RegIdx) : (s.report b).x i = s.x i := rfl

/-! ### `diag` -/

@[simp] theorem State.diag_regs (e : Diag) : (s.diag e).regs = s.regs := rfl
@[simp] theorem State.diag_pc (e : Diag) : (s.diag e).pc = s.pc := rfl
@[simp] theorem State.diag_flags (e : Diag) : (s.diag e).flags = s.flags := rfl
@[simp] theorem State.diag_mem (e : Diag) : (s.diag e).mem = s.mem := rfl
@[simp] theorem State.diag_pcWritten (e : Diag) : (s.diag e).pcWritten = s.pcWritten := rfl
@[simp] theorem State.diag_periphEvents (e : Diag) : (s.diag e).periphEvents = s.periphEvents := rfl
@[simp] theorem State.diag_diagLog (e : Diag) : (s.diag e).diagLog = s.diagLog ++ [e] := rfl
@[simp] theorem State.diag_stop (e : Diag) : (s.diag e).stop = s.stop := rfl
@[simp] theorem State.diag_params (e : Diag) : (s.diag e).params = s.params := rfl
@[simp] theorem State.diag_x (e : Diag) (i : RegIdx) : (s.diag e).x i = s.x i := rfl

/-! ### `stopWith` -/

@[simp] theorem State.stopWith_regs (r : StopReason) : (s.stopWith r).regs = s.regs := rfl
@[simp] theorem State.stopWith_pc (r : StopReason) : (s.stopWith r).pc = s.pc := rfl
@[simp] theorem State.stopWith_flags (r : StopReason) : (s.stopWith r).flags = s.flags := rfl
@[simp] theorem State.stopWith_mem (r : StopReason) : (s.stopWith r).mem = s.mem := rfl
@[simp] theorem State.stopWith_pcWritten (r : StopReason) : (s.stopWith r).pcWritten = s.pcWritten := rfl
@[simp] theorem State.stopWith_periphEvents (r : StopReason) : (s.stopWith r).periphEvents = s.periphEvents := rfl
@[simp] theorem State.stopWith_diagLog (r : StopReason) : (s.stopWith r).diagLog = s.diagLog := rfl
@[simp] theorem State.stopWith_stop (r : StopReason) : (s.stopWith r).stop = r := rfl
@[simp] theorem State.stopWith_params (r : StopReason) : (s.stopWith r).params = s.params := rfl
@[simp] theorem State.stopWith_x (r : StopReason) (i : RegIdx) : (s.stopWith r).x i = s.x i := rfl

/-! ### `periphStore` -/

@[simp] theorem State.periphStore_regs (a : Word) (sz : OpSize) (v : Word) : (s.periphStore a sz v).regs = s.regs := rfl
@[simp] theorem State.periphStore_pc (a : Word) (sz : OpSize) (v : Word) : (s.periphStore a sz v).pc = s.pc := rfl
@[simp] theorem State.periphStore_flags (a : Word) (sz : OpSize) (v : Word) : (s.periphStore a sz v).flags = s.flags := rfl
@[simp] theorem State.periphStore_mem (a : Word) (sz : OpSize) (v : Word) : (s.periphStore a sz v).mem = s.mem := rfl
@[simp] theorem State.periphStore_pcWritten (a : Word) (sz : OpSize) (v : Word) : (s.periphStore a sz v).pcWritten = s.pcWritten := rfl
@[simp] theorem State.periphStore_periphEvents (a : Word) (sz : OpSize) (v : Word) : (s.periphStore a sz v).periphEvents = s.periphEvents ++ [{ addr := a, size := sz, value := v }] := rfl
@[simp] theorem State.periphStore_diagLog (a : Word) (sz : OpSize) (v : Word) : (s.periphStore a sz v).diagLog = s.diagLog := rfl
@[simp] theorem State.periphStore_stop (a : Word) (sz : OpSize) (v : Word) : (s.periphStore a sz v).stop = s.stop := rfl
@[simp] theorem State.periphStore_params (a : Word) (sz : OpSize) (v : Word) : (s.periphStore a sz v).params = s.params := rfl
@[simp] theorem State.periphStore_x (a : Word) (sz : OpSize) (v : Word) (i : RegIdx) : (s.periphStore a sz v).x i = s.x i := rfl

/-! ### `abnormalStop` -/

@[simp] theorem State.abnormalStop_regs (r : StopReason) (e : Diag) : (s.abnormalStop r e).regs = s.regs := rfl
@[simp] theorem State.abnormalStop_pc (r : StopReason) (e : Diag) : (s.abnormalStop r e).pc = s.pc := rfl
@[simp] theorem State.abnormalStop_flags (r : StopReason) (e : Diag) : (s.abnormalStop r e).flags = s.flags := rfl
@[simp] theorem State.abnormalStop_mem (r : StopReason) (e : Diag) : (s.abnormalStop r e).mem = s.mem := rfl
@[simp] theorem State.abnormalStop_pcWritten (r : StopReason) (e : Diag) : (s.abnormalStop r e).pcWritten = s.pcWritten := rfl
@[simp] theorem State.abnormalStop_periphEvents (r : StopReason) (e : Diag) : (s.abnormalStop r e).periphEvents = s.periphEvents := rfl
@[simp] theorem State.abnormalStop_diagLog (r : StopReason) (e : Diag) : (s.abnormalStop r e).diagLog = s.diagLog ++ [e] := rfl
@[simp] theorem State.abnormalStop_stop (r : StopReason) (e : Diag) : (s.abnormalStop r e).stop = r := rfl
@[simp] theorem State.abnormalStop_params (r : StopReason) (e : Diag) : (s.abnormalStop r e).params = s.params := rfl
@[simp] theorem State.abnormalStop_x (r : StopReason) (e : Diag) (i : RegIdx) : (s.abnormalStop r e).x i = s.x i := rfl

/-! ### `setX` and `wreg` -/

@[simp] theorem State.setX_pc (i : RegIdx) (v : Word) : (s.setX i v).pc = s.pc := by
  unfold State.setX; split <;> rfl
@[simp] theorem State.wreg_pc (i : RegIdx) (sz : OpSize) (v : BitVec sz.bits) : (s.wreg i sz v).pc = s.pc :=
  s.setX_pc i _
@[simp] theorem State.setX_flags (i : RegIdx) (v : Word) : (s.setX i v).flags = s.flags := by
  unfold State.setX; split <;> rfl
@[simp] theorem State.wreg_flags (i : RegIdx) (sz : OpSize) (v : BitVec sz.bits) : (s.wreg i sz v).flags = s.flags :=
  s.setX_flags i _
@[simp] theorem State.setX_mem (i : RegIdx) (v : Word) : (s.setX i v).mem = s.mem := by
  unfold State.setX; split <;> rfl
@[simp] theorem State.wreg_mem (i : RegIdx) (sz : OpSize) (v : BitVec sz.bits) : (s.wreg i sz v).mem = s.mem :=
  s.setX_mem i _
@[simp] theorem State.setX_pcWritten (i : RegIdx) (v : Word) : (s.setX i v).pcWritten = s.pcWritten := by
  unfold State.setX; split <;> rfl
@[simp] theorem State.wreg_pcWritten (i : RegIdx) (sz : OpSize) (v : BitVec sz.bits) : (s.wreg i sz v).pcWritten = s.pcWritten :=
  s.setX_pcWritten i _
@[simp] theorem State.setX_periphEvents (i : RegIdx) (v : Word) : (s.setX i v).periphEvents = s.periphEvents := by
  unfold State.setX; split <;> rfl
@[simp] theorem State.wreg_periphEvents (i : RegIdx) (sz : OpSize) (v : BitVec sz.bits) : (s.wreg i sz v).periphEvents = s.periphEvents :=
  s.setX_periphEvents i _
@[simp] theorem State.setX_diagLog (i : RegIdx) (v : Word) : (s.setX i v).diagLog = s.diagLog := by
  unfold State.setX; split <;> rfl
@[simp] theorem State.wreg_diagLog (i : RegIdx) (sz : OpSize) (v : BitVec sz.bits) : (s.wreg i sz v).diagLog = s.diagLog :=
  s.setX_diagLog i _
@[simp] theorem State.setX_stop (i : RegIdx) (v : Word) : (s.setX i v).stop = s.stop := by
  unfold State.setX; split <;> rfl
@[simp] theorem State.wreg_stop (i : RegIdx) (sz : OpSize) (v : BitVec sz.bits) : (s.wreg i sz v).stop = s.stop :=
  s.setX_stop i _
@[simp] theorem State.setX_params (i : RegIdx) (v : Word) : (s.setX i v).params = s.params := by
  unfold State.setX; split <;> rfl
@[simp] theorem State.wreg_params (i : RegIdx) (sz : OpSize) (v : BitVec sz.bits) : (s.wreg i sz v).params = s.params :=
  s.setX_params i _

/-- A 5-bit index is below 31 exactly when it is not the zero register's. -/
theorem RegIdx_lt_31_iff (i : RegIdx) : i.toNat < 31 ↔ i ≠ zeroReg := by
  constructor
  · rintro h rfl
    exact absurd h (by decide)
  · intro h
    have hlt := i.isLt
    have : i.toNat ≠ 31 := fun e => h (BitVec.eq_of_toNat_eq e)
    omega

/-- Index 31 reads 0 (10_state.md R20). -/
@[simp] theorem State.x_zeroReg : s.x zeroReg = 0#64 := rfl

/-- A write of index 31 is discarded (10_state.md R20). -/
@[simp] theorem State.setX_zeroReg (v : Word) : s.setX zeroReg v = s := rfl

/-- What every register reads after a write. -/
theorem State.x_setX (i r : RegIdx) (v : Word) :
    (s.setX i v).x r = if r = i ∧ r ≠ zeroReg then v else s.x r := by
  by_cases hi : i.toNat < 31
  · by_cases hr : r.toNat < 31
    · have hr' := (RegIdx_lt_31_iff r).mp hr
      have e : (i.toNat = r.toNat) ↔ r = i :=
        ⟨fun h => (BitVec.eq_of_toNat_eq h).symm, fun h => by rw [h]⟩
      simp only [State.x, State.setX, hi, hr, dite_true, Vector.getElem_set, e, hr', ne_eq, not_false_eq_true,
        and_true]
    · have hr' : r = zeroReg := by
        by_contra h
        exact hr ((RegIdx_lt_31_iff r).mpr h)
      subst hr'
      simp
  · have hi' : i = zeroReg := by
      by_contra h
      exact hi ((RegIdx_lt_31_iff i).mpr h)
    subst hi'
    by_cases h : r = zeroReg
    · subst h; simp
    · simp [h]

/-- What every register reads after `wreg` (10_state.md R20, R21). -/
theorem State.x_wreg (i r : RegIdx) (sz : OpSize) (v : BitVec sz.bits) :
    (s.wreg i sz v).x r = if r = i ∧ r ≠ zeroReg then v.setWidth 64 else s.x r :=
  s.x_setX i r _

/-- Two states with the same fields but for the registers, and the same readable registers, are equal. -/
theorem State.regs_ext {s t : State} (h : ∀ r, s.x r = t.x r) : s.regs = t.regs := by
  apply Vector.ext
  intro k hk
  have h1 := h (BitVec.ofNat 5 k)
  have hk' : (BitVec.ofNat 5 k).toNat = k := by
    rw [BitVec.toNat_ofNat]; omega
  simpa only [State.x, hk', hk, dite_true] using h1

/-- The width-W value of a register, as a number (00_scope.md R15). -/
theorem State.xs_toNat (i : RegIdx) (sz : OpSize) : (s.xs i sz).toNat = (s.x i).toNat % 2 ^ sz.bits :=
  BitVec.toNat_setWidth _ _

@[simp] theorem State.xs_report (b : Bool) (i : RegIdx) (sz : OpSize) : (s.report b).xs i sz = s.xs i sz := rfl

end Sys2Proof.Machine
end

