-- ==== Sys2Proof/Laws/Memory.lean ====
section
/-! SUPPORT. Memory: a byte read after a write, the canonical form kept by every memory operation, and the multi-byte
values in terms of their bytes. -/

namespace Sys2Proof.Machine

/-! ## Cells -/

theorem cellsWf_mono {lo lo' : Nat} (h : lo' ≤ lo) {cs : List Host.Cell} (hw : cellsWf lo cs = true) :
    cellsWf lo' cs = true := by
  cases cs with
  | nil => rfl
  | cons c rest =>
    obtain ⟨a, v⟩ := c
    simp only [cellsWf, Bool.and_eq_true, decide_eq_true_eq, bne_iff_ne, ne_eq] at hw ⊢
    exact ⟨⟨⟨by omega, hw.1.1.2⟩, hw.1.2⟩, hw.2⟩

/-- Below the first address a canonical list can hold, every byte reads as unlisted. -/
theorem readCells_of_lt {lo a : Nat} {cs : List Host.Cell} (hw : cellsWf lo cs = true) (h : a < lo) :
    readCells cs a = Memory.unlisted := by
  cases cs with
  | nil => rfl
  | cons c rest =>
    obtain ⟨b, v⟩ := c
    simp only [cellsWf, Bool.and_eq_true, decide_eq_true_eq] at hw
    simp [readCells, show a < b by omega]

/-- At and above MEM_SIZE every byte of a canonical list reads as unlisted. -/
theorem readCells_of_memSize_le {lo a : Nat} {cs : List Host.Cell} (hw : cellsWf lo cs = true)
    (h : Config.memSize ≤ a) : readCells cs a = Memory.unlisted := by
  induction cs generalizing lo with
  | nil => rfl
  | cons c rest ih =>
    obtain ⟨b, v⟩ := c
    simp only [cellsWf, Bool.and_eq_true, decide_eq_true_eq] at hw
    have hb : ¬ a < b := by omega
    have hne : ¬ a = b := by omega
    simpa [readCells, hb, hne] using ih hw.2

/-- A write inside memory keeps the canonical form. -/
theorem cellsWf_writeCells {lo a : Nat} {cs : List Host.Cell} (v : Byte) (hlo : lo ≤ a) (ha : a < Config.memSize)
    (hw : cellsWf lo cs = true) : cellsWf lo (writeCells cs a v) = true := by
  induction cs generalizing lo with
  | nil =>
    by_cases hv : v = Memory.unlisted
    · simp [writeCells, hv, cellsWf]
    · simp [writeCells, hv, cellsWf, hlo, ha]
  | cons c rest ih =>
    obtain ⟨b, u⟩ := c
    have hw0 := hw
    simp only [cellsWf, Bool.and_eq_true, decide_eq_true_eq, bne_iff_ne, ne_eq] at hw
    obtain ⟨⟨⟨h1, h2⟩, h3⟩, h4⟩ := hw
    by_cases hab : a < b
    · by_cases hv : v = Memory.unlisted
      · simpa [writeCells, hab, hv] using hw0
      · simp only [writeCells, hab, hv, if_true, if_false, cellsWf, Bool.and_eq_true, decide_eq_true_eq,
          bne_iff_ne, ne_eq, not_false_eq_true]
        exact ⟨⟨⟨hlo, ha⟩, trivial⟩, ⟨⟨by omega, h2⟩, h3⟩, h4⟩
    · by_cases he : a = b
      · subst he
        by_cases hv : v = Memory.unlisted
        · simpa [writeCells, hv] using cellsWf_mono (by omega) h4
        · simp only [writeCells, hv, lt_irrefl, if_true, if_false, cellsWf, Bool.and_eq_true, decide_eq_true_eq,
            bne_iff_ne, ne_eq, not_false_eq_true]
          exact ⟨⟨⟨hlo, ha⟩, trivial⟩, h4⟩
      · simp only [writeCells, hab, he, if_false, cellsWf, Bool.and_eq_true, decide_eq_true_eq, bne_iff_ne, ne_eq]
        exact ⟨⟨⟨h1, h2⟩, h3⟩, ih (by omega) h4⟩

/-- A byte read after a write: the value written at its address, and every other byte as before. -/
theorem readCells_writeCells {lo : Nat} {cs : List Host.Cell} (a c : Nat) (v : Byte) (hw : cellsWf lo cs = true) :
    readCells (writeCells cs a v) c = if c = a then v else readCells cs c := by
  induction cs generalizing lo with
  | nil =>
    by_cases hv : v = Memory.unlisted
    · simp [writeCells, hv, readCells]
    · rcases lt_trichotomy c a with h | h | h
      · simp [writeCells, hv, readCells, h, h.ne]
      · simp [writeCells, hv, readCells, h]
      · simp [writeCells, hv, readCells, h.not_gt, h.ne']
  | cons d rest ih =>
    obtain ⟨b, u⟩ := d
    simp only [cellsWf, Bool.and_eq_true, decide_eq_true_eq, bne_iff_ne, ne_eq] at hw
    obtain ⟨⟨⟨_, _⟩, _⟩, h4⟩ := hw
    by_cases hab : a < b
    · by_cases hv : v = Memory.unlisted
      · by_cases hc : c = a
        · subst hc; simp [writeCells, hab, hv, readCells]
        · simp [writeCells, hab, hv, hc]
      · rcases lt_trichotomy c a with h | h | h
        · simp [writeCells, hab, hv, readCells, h, h.ne, h.trans hab]
        · simp [writeCells, hab, hv, readCells, h]
        · simp [writeCells, hab, hv, readCells, h.not_gt, h.ne']
    · by_cases he : a = b
      · subst he
        by_cases hv : v = Memory.unlisted
        · rcases lt_trichotomy c a with h | h | h
          · have := readCells_of_lt (a := c) h4 (by omega)
            simp [writeCells, hv, readCells, h, h.ne, this]
          · subst h
            have := readCells_of_lt (a := c) h4 (by omega)
            simp [writeCells, hv, this]
          · simp [writeCells, hv, readCells, h.not_gt, h.ne']
        · rcases lt_trichotomy c a with h | h | h
          · simp [writeCells, hv, readCells, h, h.ne]
          · simp [writeCells, hv, readCells, h]
          · simp [writeCells, hv, readCells, h.not_gt, h.ne']
      · have hba : b < a := by omega
        rcases lt_trichotomy c b with h | h | h
        · simp [writeCells, hab, he, readCells, h, (h.trans hba).ne]
        · subst h
          simp [writeCells, hab, he, readCells, hba.ne]
        · simp [writeCells, hab, he, readCells, h.not_gt, h.ne', ih h4]

/-! ## One byte -/

/-- A byte read after a write of one byte. -/
theorem Memory.read_write {m : Memory} (hw : m.wf = true) (a c : Nat) (v : Byte) :
    (m.write a v).read c = if c = a then v else m.read c :=
  readCells_writeCells a c v hw

/-- A write inside memory keeps the canonical form. -/
theorem Memory.wf_write {m : Memory} (hw : m.wf = true) {a : Nat} (ha : a < Config.memSize) (v : Byte) :
    (m.write a v).wf = true :=
  cellsWf_writeCells v (Nat.zero_le a) ha hw

/-- Outside memory every byte of a canonical memory reads as unlisted. -/
theorem Memory.read_of_memSize_le {m : Memory} (hw : m.wf = true) {a : Nat} (h : Config.memSize ≤ a) :
    m.read a = Memory.unlisted :=
  readCells_of_memSize_le hw h

/-- Canonical memories with the same bytes are equal. -/
theorem Memory.ext_read {m m' : Memory} (hm : m.wf = true) (hm' : m'.wf = true)
    (h : ∀ a, m.read a = m'.read a) : m = m' := by
  obtain ⟨cs⟩ := m
  obtain ⟨cs'⟩ := m'
  have key : ∀ (lo : Nat) (cs cs' : List Host.Cell), cellsWf lo cs = true → cellsWf lo cs' = true →
      (∀ a, readCells cs a = readCells cs' a) → cs = cs' := by
    intro lo cs
    induction cs generalizing lo with
    | nil =>
      intro cs' _ hw' h
      cases cs' with
      | nil => rfl
      | cons c rest =>
        obtain ⟨b, u⟩ := c
        simp only [cellsWf, Bool.and_eq_true, decide_eq_true_eq, bne_iff_ne, ne_eq] at hw'
        exact absurd (by simpa [readCells] using (h b).symm) hw'.1.2
    | cons d rest ih =>
      obtain ⟨b, u⟩ := d
      intro cs' hw hw' h
      simp only [cellsWf, Bool.and_eq_true, decide_eq_true_eq, bne_iff_ne, ne_eq] at hw
      cases cs' with
      | nil => exact absurd (by simpa [readCells] using h b) hw.1.2
      | cons d' rest' =>
        obtain ⟨b', u'⟩ := d'
        simp only [cellsWf, Bool.and_eq_true, decide_eq_true_eq, bne_iff_ne, ne_eq] at hw'
        have hbb : b = b' := by
          rcases lt_trichotomy b b' with hl | he | hg
          · exact absurd (by simpa [readCells, hl] using h b) hw.1.2
          · exact he
          · exact absurd (by simpa [readCells, hg] using (h b').symm) hw'.1.2
        subst hbb
        have hu : u = u' := by simpa [readCells] using h b
        subst hu
        have hr : rest = rest' := by
          apply ih (b + 1) rest' hw.2 hw'.2
          intro a
          rcases lt_trichotomy a b with hl | he | hg
          · rw [readCells_of_lt hw.2 (by omega), readCells_of_lt hw'.2 (by omega)]
          · subst he
            rw [readCells_of_lt hw.2 (by omega), readCells_of_lt hw'.2 (by omega)]
          · simpa [readCells, hg.not_gt, hg.ne'] using h a
        rw [hr]
  have := key 0 cs cs' hm hm' h
  rw [this]

/-! ## Multi-byte values -/

theorem toNat_ushiftRight_8 (v : Word) : (v >>> 8).toNat = v.toNat / 256 := by
  simp [BitVec.toNat_ushiftRight, Nat.shiftRight_eq_div_pow]

/-- A byte read after a little-endian write: byte `c − a` of the value inside the written range, and every other byte
as before (20_memory.md R37). -/
theorem read_writeLE {m : Memory} (hw : m.wf = true) (a n c : Nat) (v : Word) (h : a + n ≤ Config.memSize) :
    (writeLE m a n v).read c =
      if a ≤ c ∧ c < a + n then BitVec.ofNat 8 (v.toNat / 2 ^ (8 * (c - a))) else m.read c := by
  induction n generalizing m a v with
  | zero =>
    rw [writeLE, if_neg (by omega)]
  | succ n ih =>
    rw [writeLE, ih (Memory.wf_write hw (by omega) _) (a + 1) _ (by omega), Memory.read_write hw]
    rcases lt_trichotomy c a with hc | hc | hc
    · rw [if_neg (by omega), if_neg (by omega), if_neg (by omega)]
    · subst hc
      rw [if_neg (by omega), if_pos rfl, if_pos (by omega)]
      apply BitVec.eq_of_toNat_eq
      simp
    · by_cases hn : c < a + (n + 1)
      · rw [if_pos (by omega), if_pos (by omega), toNat_ushiftRight_8]
        congr 1
        rw [Nat.div_div_eq_div_mul, show 8 * (c - a) = 8 + 8 * (c - (a + 1)) by omega, pow_add]
        norm_num
      · rw [if_neg (by omega), if_neg (by omega), if_neg (by omega)]

/-- A little-endian write inside memory keeps the canonical form. -/
theorem wf_writeLE {m : Memory} (hw : m.wf = true) (a n : Nat) (v : Word) (h : a + n ≤ Config.memSize) :
    (writeLE m a n v).wf = true := by
  induction n generalizing m a v with
  | zero => exact hw
  | succ n ih => exact ih (Memory.wf_write hw (by omega) _) (a + 1) _ (by omega)

/-- A multi-byte value depends on its bytes only. -/
theorem readLE_congr {m m' : Memory} (a n : Nat) (h : ∀ k, k < n → m.read (a + k) = m'.read (a + k)) :
    readLE m a n = readLE m' a n := by
  induction n generalizing a with
  | zero => rfl
  | succ n ih =>
    have h0 := h 0 (by omega)
    rw [Nat.add_zero] at h0
    rw [readLE, readLE, h0, ih (a + 1) fun k hk => by
      have := h (k + 1) (by omega)
      rwa [show a + (k + 1) = a + 1 + k by omega] at this]

/-- The value of at most 8 bytes is their little-endian sum (20_memory.md R37, R44). -/
theorem readLE_toNat (m : Memory) (a n : Nat) (h : n ≤ 8) :
    (readLE m a n).toNat = ∑ k ∈ Finset.range n, (m.read (a + k)).toNat * 2 ^ (8 * k) := by
  have key : ∀ (n a : Nat), n ≤ 8 →
      (readLE m a n).toNat = ∑ k ∈ Finset.range n, (m.read (a + k)).toNat * 2 ^ (8 * k) ∧
        (readLE m a n).toNat < 2 ^ (8 * n) := by
    intro n
    induction n with
    | zero => intro a _; simp [readLE]
    | succ n ih =>
      intro a hn
      obtain ⟨h1, h2⟩ := ih (a + 1) (by omega)
      have hb : (m.read a).toNat < 256 := (m.read a).isLt
      have hp : 2 ^ (8 * n) * 256 ≤ 2 ^ 64 := by
        have : 2 ^ (8 * n) * 256 = 2 ^ (8 * (n + 1)) := (pow_add 2 (8 * n) 8).symm
        rw [this]
        exact Nat.pow_le_pow_right (by norm_num) (by omega)
      have hlt : (readLE m (a + 1) n).toNat * 256 < 2 ^ 64 :=
        lt_of_lt_of_le (Nat.mul_lt_mul_of_pos_right h2 (by norm_num)) hp
      have hs : (readLE m (a + 1) n <<< 8).toNat = 2 ^ 8 * (readLE m (a + 1) n).toNat := by
        rw [BitVec.toNat_shiftLeft, Nat.shiftLeft_eq, Nat.mod_eq_of_lt (by simpa using hlt)]
        omega
      have e : (readLE m a (n + 1)).toNat = (readLE m (a + 1) n).toNat * 256 + (m.read a).toNat := by
        rw [readLE, BitVec.toNat_or, hs, BitVec.toNat_setWidth,
          Nat.mod_eq_of_lt (lt_of_lt_of_le hb (by norm_num)), Nat.or_comm,
          ← Nat.two_pow_add_eq_or_of_lt (i := 8) (by simpa using hb)]
        omega
      constructor
      · rw [e, h1, Finset.sum_range_succ', Finset.sum_mul]
        simp only [Nat.add_zero, Nat.mul_zero, pow_zero, Nat.mul_one]
        congr 1
        apply Finset.sum_congr rfl
        intro k _
        rw [show a + 1 + k = a + (k + 1) by omega, show 8 * (k + 1) = 8 * k + 8 by omega, pow_add]
        ring
      · have e' : 2 ^ (8 * (n + 1)) = 2 ^ (8 * n) * 256 := pow_add 2 (8 * n) 8
        rw [e, e']
        refine lt_of_lt_of_le ?_ (Nat.mul_le_mul_right 256 (Nat.succ_le_of_lt h2))
        rw [Nat.succ_mul]
        exact Nat.add_lt_add_left hb _
  exact (key n a h).1

/-- The value of `n` bytes fits in `n` bytes. -/
theorem readLE_lt (m : Memory) (a n : Nat) (h : n ≤ 8) : (readLE m a n).toNat < 2 ^ (8 * n) := by
  rw [readLE_toNat m a n h]
  clear h
  induction n with
  | zero => simp
  | succ n ih =>
    have e : 2 ^ (8 * (n + 1)) = 2 ^ (8 * n) * 256 := pow_add 2 (8 * n) 8
    have hb : (m.read (a + n)).toNat < 256 := (m.read (a + n)).isLt
    have hm : (m.read (a + n)).toNat * 2 ^ (8 * n) ≤ 255 * 2 ^ (8 * n) :=
      Nat.mul_le_mul_right _ (Nat.le_pred_of_lt hb)
    rw [Finset.sum_range_succ, e]
    omega

/-! ## The image -/

/-- A byte of the memory an image was stored in (70_reset_and_hazards.md R196). -/
theorem read_storeBytes {m : Memory} (hw : m.wf = true) (a c : Nat) (image : List Byte)
    (h : a + image.length ≤ Config.memSize) :
    (storeBytes m a image).read c =
      if a ≤ c ∧ c < a + image.length then image.getD (c - a) Memory.unlisted else m.read c := by
  induction image generalizing m a with
  | nil =>
    rw [storeBytes, if_neg (by simp)]
  | cons b rest ih =>
    simp only [List.length_cons] at h ⊢
    rw [storeBytes, ih (Memory.wf_write hw (by omega) _) (a + 1) (by omega), Memory.read_write hw]
    rcases lt_trichotomy c a with hc | hc | hc
    · rw [if_neg (by omega), if_neg (by omega), if_neg (by omega)]
    · subst hc
      rw [if_neg (by omega), if_pos rfl, if_pos (by omega)]
      simp
    · by_cases hn : c < a + (rest.length + 1)
      · rw [if_pos (by omega), if_pos (by omega), show c - a = c - (a + 1) + 1 by omega, List.getD_cons_succ]
      · rw [if_neg (by omega), if_neg (by omega), if_neg (by omega)]

/-- Storing an image that fits keeps the canonical form. -/
theorem wf_storeBytes {m : Memory} (hw : m.wf = true) (a : Nat) (image : List Byte)
    (h : a + image.length ≤ Config.memSize) : (storeBytes m a image).wf = true := by
  induction image generalizing m a with
  | nil => exact hw
  | cons b rest ih =>
    simp only [List.length_cons] at h
    exact ih (Memory.wf_write hw (by omega) _) (a + 1) (by omega)

/-- The reset memory is canonical. -/
theorem State.reset_mem_wf : State.reset.mem.wf = true := rfl

end Sys2Proof.Machine
end

