-- ==== Sys2Proof/Laws/Ops.lean ====
section
/-! SUPPORT. One lemma for each shared operation that says everything it does, as an equation between states or as the
list of its cases: later proofs cite these and do not unfold the operations. -/

namespace Sys2Proof.Machine

/-! ## Registers -/

/-- A register write changes nothing but the registers. -/
theorem State.setX_eq (s : State) (i : RegIdx) (v : Word) : s.setX i v = { s with regs := (s.setX i v).regs } := by
  unfold State.setX; split <;> rfl

/-- A register write changes nothing but the registers. -/
theorem State.wreg_eq (s : State) (i : RegIdx) (sz : OpSize) (v : BitVec sz.bits) :
    s.wreg i sz v = { s with regs := (s.wreg i sz v).regs } :=
  s.setX_eq i _

/-- States equal in every field but the registers, with the same readable registers, are equal. -/
theorem State.ext_x {s t : State} (hx : ∀ r, s.x r = t.x r) (h : { s with regs := t.regs } = t) : s = t := by
  have := State.regs_ext hx
  rw [← h, ← this]

/-! ## The ALU operations -/

/-- Everything `arith` does. -/
theorem State.arith_eq (s : State) (sz : OpSize) (rd : RegIdx) (a b : BitVec sz.bits) (sub setFlags : Bool) :
    s.arith sz rd a b sub setFlags =
      { s with
        regs := (s.wreg rd sz (addSub a b sub).1).regs
        flags := if setFlags then (addSub a b sub).2 else s.flags
        pcWritten := false } := by
  unfold State.arith
  rw [show addSub a b sub = ((addSub a b sub).1, (addSub a b sub).2) from rfl]
  simp only
  rw [s.wreg_eq]
  cases setFlags <;> rfl

/-- Everything `logic` does. -/
theorem State.logic_eq (s : State) (sz : OpSize) (rd : RegIdx) (r : BitVec sz.bits) (setFlags : Bool) :
    s.logic sz rd r setFlags =
      { s with
        regs := (s.wreg rd sz r).regs
        flags := if setFlags then logicFlags r else s.flags
        pcWritten := false } := by
  unfold State.logic
  simp only
  rw [s.wreg_eq]
  cases setFlags <;> rfl

/-- Everything `move` does. -/
theorem State.move_eq (s : State) (sz : OpSize) (rd : RegIdx) (v : BitVec sz.bits) :
    s.move sz rd v = { s with regs := (s.wreg rd sz v).regs, pcWritten := false } := by
  unfold State.move
  rw [s.wreg_eq]
  rfl

/-- Everything `branchTo` does. -/
theorem State.branchTo_eq (s : State) (target : Word) :
    s.branchTo target = { s with pc := target, pcWritten := true } := rfl

/-! ## Access primitives -/

theorem inBounds_iff (a : Word) (n : Nat) : inBounds a n = true ↔ a.toNat + n ≤ Config.memSize := by
  simp [inBounds]

theorem inBounds_false_iff (a : Word) (n : Nat) : inBounds a n = false ↔ Config.memSize < a.toNat + n := by
  simp [inBounds]

/-- `MemRead` in bounds (20_memory.md R44). -/
theorem State.memRead_in (s : State) {a : Word} {sz : OpSize} (h : a.toNat + sz.bytes ≤ Config.memSize) :
    s.memRead a sz = (readLE s.mem a.toNat sz.bytes, s) := by
  rw [State.memRead, if_pos ((inBounds_iff a _).mpr h)]

/-- `MemRead` out of bounds (20_memory.md R44). -/
theorem State.memRead_out (s : State) {a : Word} {sz : OpSize} (h : Config.memSize < a.toNat + sz.bytes) :
    s.memRead a sz = (0#64, s.diag (.oobLoad a sz)) := by
  rw [State.memRead, if_neg (by rw [(inBounds_false_iff a _).mpr h]; decide)]

/-- `MemWrite` in bounds (20_memory.md R45). -/
theorem State.memWrite_in (s : State) {a : Word} {sz : OpSize} (v : Word)
    (h : a.toNat + sz.bytes ≤ Config.memSize) :
    s.memWrite a sz v = { s with mem := writeLE s.mem a.toNat sz.bytes v } := by
  rw [State.memWrite, if_pos ((inBounds_iff a _).mpr h)]

/-- `MemWrite` out of bounds (20_memory.md R45). -/
theorem State.memWrite_out (s : State) {a : Word} {sz : OpSize} (v : Word)
    (h : Config.memSize < a.toNat + sz.bytes) : s.memWrite a sz v = s.diag (.oobStore a sz) := by
  rw [State.memWrite, if_neg (by rw [(inBounds_false_iff a _).mpr h]; decide)]

/-- `StoreAccess`: a peripheral event, a write, or a diagnostic (20_memory.md R47). -/
theorem State.storeAccess_cases (s : State) (a : Word) (sz : OpSize) (v : Word) :
    (Params.isPeriph s.params a = true ∧ s.storeAccess a sz v = s.periphStore a sz v) ∨
    (Params.isPeriph s.params a = false ∧ a.toNat + sz.bytes ≤ Config.memSize ∧
      s.storeAccess a sz v = { s with mem := writeLE s.mem a.toNat sz.bytes v }) ∨
    (Params.isPeriph s.params a = false ∧ Config.memSize < a.toNat + sz.bytes ∧
      s.storeAccess a sz v = s.diag (.oobStore a sz)) := by
  cases hp : Params.isPeriph s.params a with
  | true => exact .inl ⟨rfl, by rw [State.storeAccess, if_pos hp]⟩
  | false =>
    have e : s.storeAccess a sz v = s.memWrite a sz v := by
      rw [State.storeAccess, if_neg (by rw [hp]; decide)]
    rcases Nat.lt_or_ge Config.memSize (a.toNat + sz.bytes) with h | h
    · exact .inr (.inr ⟨rfl, h, e.trans (s.memWrite_out v h)⟩)
    · exact .inr (.inl ⟨rfl, h, e.trans (s.memWrite_in v h)⟩)

/-- Every way to store keeps the canonical form of memory. -/
theorem State.storeAccess_mem_wf {s : State} (hw : s.mem.wf = true) (a : Word) (sz : OpSize) (v : Word) :
    (s.storeAccess a sz v).mem.wf = true := by
  rcases s.storeAccess_cases a sz v with ⟨_, e⟩ | ⟨_, hb, e⟩ | ⟨_, _, e⟩ <;> rw [e]
  · exact hw
  · exact wf_writeLE hw _ _ _ hb
  · exact hw

/-! ## The resolver -/

/-- The resolver answers exactly for a mode with the fields that belong to it (41_addressing.md R105, R113). -/
theorem State.resolve_isSome_iff (s : State) (q : AddrQuery) :
    (s.resolve q).isSome = true ↔
      (q.mode = .zeroOffset ∧ (∃ rn, q.base = some rn) ∧ q.offset = .none) ∨
      (q.mode = .unsignedOffset ∧ (∃ rn, q.base = some rn) ∧ ∃ v, q.offset = .imm12 v) ∨
      (q.mode = .preIndexed ∧ (∃ rn, q.base = some rn) ∧ ∃ v, q.offset = .simm9 v) ∨
      (q.mode = .postIndexed ∧ (∃ rn, q.base = some rn) ∧ ∃ v, q.offset = .simm9 v) ∨
      (q.mode = .registerOffset ∧ (∃ rn, q.base = some rn) ∧ ∃ rm, q.offset = .reg rm) ∨
      (q.mode = .loadLiteral ∧ q.base = none ∧ ∃ v, q.offset = .simm19 v) := by
  obtain ⟨mode, sz, base, off⟩ := q
  cases mode <;> cases base <;> cases off <;> simp [State.resolve]

/-- The resolver changes nothing but the registers. -/
theorem State.resolve_state {s t : State} {q : AddrQuery} {a : Word} (h : s.resolve q = some (a, t)) :
    t = { s with regs := t.regs } := by
  obtain ⟨mode, sz, base, off⟩ := q
  cases mode <;> cases base <;> cases off <;> simp only [State.resolve, Option.some.injEq, Prod.mk.injEq,
    reduceCtorEq] at h <;> obtain ⟨_, rfl⟩ := h <;> first | rfl | exact s.setX_eq _ _

/-! ## The transfers -/

/-- Everything `loadXfer` does, in bounds (44_load_store.md R146). -/
theorem State.loadXfer_in (s : State) {a : Word} {sz : OpSize} (rt : RegIdx)
    (h : a.toNat + sz.bytes ≤ Config.memSize) :
    s.loadXfer a sz rt = s.wreg rt sz ((readLE s.mem a.toNat sz.bytes).setWidth sz.bits) := by
  rw [State.loadXfer, s.memRead_in h]

/-- Everything `loadXfer` does, out of bounds (44_load_store.md R146, R158). -/
theorem State.loadXfer_out (s : State) {a : Word} {sz : OpSize} (rt : RegIdx)
    (h : Config.memSize < a.toNat + sz.bytes) :
    s.loadXfer a sz rt = (s.diag (.oobLoad a sz)).wreg rt sz ((0#64).setWidth sz.bits) := by
  rw [State.loadXfer, s.memRead_out h]

/-- A load whose fields the resolver accepts (44_load_store.md R145). -/
theorem State.load_of_resolve {s t : State} {q : AddrQuery} {a : Word} (rt : RegIdx)
    (h : s.resolve q = some (a, t)) : s.load q rt = (t.loadXfer a q.sz rt).report false := by
  rw [State.load, h]

/-- A store whose fields the resolver accepts (44_load_store.md R145). -/
theorem State.store_of_resolve {s t : State} {q : AddrQuery} {a : Word} (rt : RegIdx)
    (h : s.resolve q = some (a, t)) : s.store q rt = (t.storeXfer a q.sz rt).report false := by
  rw [State.store, h]

end Sys2Proof.Machine
end

