-- ==== Sys2Proof/Laws/Step.lean ====
section
/-! SUPPORT. What a step can do, said once: the loop's checks as cases, and `step` in terms of them. -/

namespace Sys2Proof.Machine

/-- The checks of a step, as cases (46_step.md R169). -/
theorem State.prepare_cases (s : State) :
    (s.stop ≠ .none ∧ s.prepare = .done s) ∨
    (s.stop = .none ∧ Config.memSize < s.pc.toNat + 4 ∧
      s.prepare = .done (s.abnormalStop .pcOob (.pcOob s.pc))) ∨
    (s.stop = .none ∧ s.pc.toNat + 4 ≤ Config.memSize ∧ s.pc.toNat % 4 ≠ 0 ∧
      s.prepare = .done (s.abnormalStop .pcMisaligned (.pcMisaligned s.pc))) ∨
    (s.stop = .none ∧ s.pc.toNat + 4 ≤ Config.memSize ∧ s.pc.toNat % 4 = 0 ∧
      ∃ w, decode s.params.haltWord s.fetch = .unknown w ∧
        s.prepare = .done (s.abnormalStop .undefinedInsn (.undefinedInsn s.pc w))) ∨
    (s.stop = .none ∧ s.pc.toNat + 4 ≤ Config.memSize ∧ s.pc.toNat % 4 = 0 ∧
      ∃ i, decode s.params.haltWord s.fetch = .instr i ∧ s.prepare = .run i) := by
  unfold State.prepare
  by_cases h1 : s.stop = .none
  · rw [if_neg (not_not.mpr h1)]
    rcases Nat.lt_or_ge Config.memSize (s.pc.toNat + 4) with h2 | h2
    · rw [if_pos ((inBounds_false_iff _ _).mpr h2)]
      exact .inr (.inl ⟨h1, h2, rfl⟩)
    · rw [if_neg (by rw [(inBounds_iff _ _).mpr h2]; decide)]
      by_cases h3 : s.pc.toNat % 4 = 0
      · rw [if_neg (not_not.mpr h3)]
        cases hd : decode s.params.haltWord s.fetch with
        | instr i => exact .inr (.inr (.inr (.inr ⟨h1, h2, h3, i, rfl, rfl⟩)))
        | unknown w => exact .inr (.inr (.inr (.inl ⟨h1, h2, h3, w, rfl, rfl⟩)))
      · rw [if_pos h3]
        exact .inr (.inr (.inl ⟨h1, h2, h3, rfl⟩))
  · rw [if_pos h1]
    exact .inl ⟨h1, rfl⟩

/-- A step whose checks end it. -/
theorem step_of_done {s t : State} (h : s.prepare = .done t) : step s = .next t := by
  rw [step, h]

/-- A step that executes an instruction. -/
theorem step_of_run {s t : State} {i : Instr} (h : s.prepare = .run i) (he : exec i s = .next t) :
    step s = .next (t.conclude i s.pc) := by
  rw [step, h]
  simp only [he]

/-- What the loop does after an instruction, as cases (46_step.md R174, R175; 45_branch.md R165). -/
theorem State.conclude_cases (t : State) (i : Instr) (old : Word) :
    (i = .halt ∧ t.conclude i old = { t with stop := .halt, pcWritten := false }) ∨
    (i ≠ .halt ∧ t.pcWritten = true ∧ t.pc = old ∧
      t.conclude i old = { t with stop := .stuckPc, pcWritten := false }) ∨
    (i ≠ .halt ∧ t.pcWritten = true ∧ t.pc ≠ old ∧ t.conclude i old = { t with pcWritten := false }) ∨
    (i ≠ .halt ∧ t.pcWritten = false ∧
      t.conclude i old = { t with pc := t.pc + 4#64, pcWritten := false }) := by
  unfold State.conclude
  by_cases hi : i = .halt
  · rw [if_pos hi]
    exact .inl ⟨hi, rfl⟩
  · rw [if_neg hi]
    cases hp : t.pcWritten with
    | true =>
      rw [if_pos rfl]
      by_cases ho : t.pc = old
      · rw [if_pos ho]
        exact .inr (.inl ⟨hi, rfl, ho, rfl⟩)
      · rw [if_neg ho]
        exact .inr (.inr (.inl ⟨hi, rfl, ho, rfl⟩))
    | false =>
      rw [if_neg (by decide)]
      exact .inr (.inr (.inr ⟨hi, rfl, rfl⟩))

end Sys2Proof.Machine
end

