-- ==== Sys2Proof/Laws/Exec.lean ====
section
/-! SUPPORT. What a meaning can do, said once: the transfers of loads and stores as equations between states, every
instruction as one of four shapes, and the decoder's verdict UNKNOWN. -/

namespace Sys2Proof.Machine

/-! ## Loads and stores -/

/-- Everything a load does: registers and the report, and out of bounds a diagnostic (44_load_store.md R145, R146). -/
theorem State.load_cases {s t : State} {q : AddrQuery} {a : Word} (rt : RegIdx) (h : s.resolve q = some (a, t)) :
    (a.toNat + q.sz.bytes ≤ Config.memSize ∧
      s.load q rt =
        { s with
          regs := (t.wreg rt q.sz ((readLE s.mem a.toNat q.sz.bytes).setWidth q.sz.bits)).regs
          pcWritten := false }) ∨
    (Config.memSize < a.toNat + q.sz.bytes ∧
      s.load q rt =
        { s with
          regs := (t.wreg rt q.sz ((0#64).setWidth q.sz.bits)).regs
          diagLog := s.diagLog ++ [.oobLoad a q.sz]
          pcWritten := false }) := by
  rw [State.load_of_resolve rt h]
  have ht := State.resolve_state h
  have hm : t.mem = s.mem := by rw [ht]
  rcases Nat.lt_or_ge Config.memSize (a.toNat + q.sz.bytes) with hb | hb
  · right
    refine ⟨hb, ?_⟩
    rw [t.loadXfer_out rt hb, State.wreg_eq]
    have hx : ((t.diag (.oobLoad a q.sz)).wreg rt q.sz ((0#64).setWidth q.sz.bits)).regs =
        (t.wreg rt q.sz ((0#64).setWidth q.sz.bits)).regs := by
      unfold State.wreg State.setX; split <;> rfl
    rw [hx]
    generalize (t.wreg rt q.sz ((0#64).setWidth q.sz.bits)).regs = r
    rw [ht]; rfl
  · left
    refine ⟨hb, ?_⟩
    rw [t.loadXfer_in rt hb, State.wreg_eq, hm]
    generalize (t.wreg rt q.sz ((readLE s.mem a.toNat q.sz.bytes).setWidth q.sz.bits)).regs = r
    rw [ht]; rfl

/-- Everything a store does: the write-back and the report, and an event, a write or a diagnostic
(44_load_store.md R145, R147; 20_memory.md R47). -/
theorem State.store_cases {s t : State} {q : AddrQuery} {a : Word} (rt : RegIdx) (h : s.resolve q = some (a, t)) :
    (Params.isPeriph s.params a = true ∧
      s.store q rt =
        { s with
          regs := t.regs
          periphEvents := s.periphEvents ++ [{ addr := a, size := q.sz, value := (t.xs rt q.sz).setWidth 64 }]
          pcWritten := false }) ∨
    (Params.isPeriph s.params a = false ∧ a.toNat + q.sz.bytes ≤ Config.memSize ∧
      s.store q rt =
        { s with
          regs := t.regs
          mem := writeLE s.mem a.toNat q.sz.bytes ((t.xs rt q.sz).setWidth 64)
          pcWritten := false }) ∨
    (Params.isPeriph s.params a = false ∧ Config.memSize < a.toNat + q.sz.bytes ∧
      s.store q rt =
        { s with
          regs := t.regs
          diagLog := s.diagLog ++ [.oobStore a q.sz]
          pcWritten := false }) := by
  rw [State.store_of_resolve rt h, State.storeXfer]
  have ht := State.resolve_state h
  have hp : t.params = s.params := by rw [ht]
  generalize (t.xs rt q.sz).setWidth 64 = v
  rcases t.storeAccess_cases a q.sz v with ⟨h1, e⟩ | ⟨h1, hb, e⟩ | ⟨h1, hb, e⟩ <;> rw [hp] at h1 <;> rw [e]
  · refine .inl ⟨h1, ?_⟩
    rw [ht]; rfl
  · refine .inr (.inl ⟨h1, hb, ?_⟩)
    rw [ht]; rfl
  · refine .inr (.inr ⟨h1, hb, ?_⟩)
    rw [ht]; rfl

/-! ## Instructions -/

/-- What an instruction can do: write a register and perhaps the flags, load, store, or say where pc goes. The decoder
gives loads and stores only modes with the fields that belong to them. -/
theorem exec_cases {i : Instr} {s t : State} (h : exec i s = .next t) :
    ((i.family = .dpImm ∨ i.family = .dpReg) ∧
      ∃ sz rd v f, t = { s with regs := (s.wreg rd sz v).regs, flags := f, pcWritten := false }) ∨
    ((i.family = .sdt ∨ i.family = .ll) ∧ ∃ q rt, (s.resolve q).isSome = true ∧ t = s.load q rt) ∨
    (i.family = .sdt ∧ ∃ q rt, (s.resolve q).isSome = true ∧ t = s.store q rt) ∨
    (i.family = .branch ∧ ∃ p b, t = { s with pc := p, pcWritten := b }) ∨
    (i = .halt ∧ t = { s with pcWritten := false }) := by
  cases i <;> rw [exec] at h
  case addImm | addsImm | subImm | subsImm =>
    cases h
    exact .inl ⟨.inl rfl, _, _, _, _, State.arith_eq ..⟩
  case movn | movz | movk =>
    cases h
    exact .inl ⟨.inl rfl, _, _, _, s.flags, State.move_eq ..⟩
  case addReg | addsReg | subReg | subsReg =>
    cases h
    exact .inl ⟨.inr rfl, _, _, _, _, State.arith_eq ..⟩
  case andReg | bicReg | orrReg | ornReg | eorReg | eonReg | andsReg | bicsReg =>
    cases h
    exact .inl ⟨.inr rfl, _, _, _, _, State.logic_eq ..⟩
  case madd | msub =>
    cases h
    exact .inl ⟨.inr rfl, _, _, _, s.flags, State.move_eq ..⟩
  case ldrUnsigned | ldrPre | ldrPost | ldrReg =>
    cases h
    exact .inr (.inl ⟨.inl rfl, _, _, rfl, rfl⟩)
  case ldrLit =>
    cases h
    exact .inr (.inl ⟨.inr rfl, _, _, rfl, rfl⟩)
  case strUnsigned | strPre | strPost | strReg =>
    cases h
    exact .inr (.inr (.inl ⟨rfl, _, _, rfl, rfl⟩))
  case b =>
    cases h
    exact .inr (.inr (.inr (.inl ⟨rfl, _, _, rfl⟩)))
  case br rn =>
    cases h
    refine .inr (.inr (.inr (.inl ⟨rfl, if rn = zeroReg then s.pc else s.x rn, true, ?_⟩)))
    split <;> rfl
  case bCond simm19 c =>
    cases h
    refine .inr (.inr (.inr (.inl ⟨rfl, if condHolds c s.flags then s.pc + wordOffset simm19 else s.pc,
      condHolds c s.flags, ?_⟩)))
    cases condHolds c s.flags <;> rfl
  case halt =>
    cases h
    exact .inr (.inr (.inr (.inr ⟨rfl, rfl⟩)))

/-! ## Decode and fetch -/

/-- A word, or an instruction: what each layout of the decoder can answer for `w`. -/
def Decoded.Of (w : InsnWord) (d : Decoded) : Prop :=
  d = .unknown w ∨ ∃ i, d = .instr i

theorem Decoded.of_instr (w : InsnWord) (i : Instr) : Decoded.Of w (.instr i) := .inr ⟨i, rfl⟩

theorem Decoded.of_unknown (w : InsnWord) : Decoded.Of w (.unknown w) := .inl rfl

theorem Decoded.of_ite {w : InsnWord} {p : Prop} [Decidable p] {d e : Decoded} (hd : Decoded.Of w d)
    (he : Decoded.Of w e) : Decoded.Of w (if p then d else e) := by
  split <;> assumption

theorem decodeBranch_of (w : InsnWord) : Decoded.Of w (decodeBranch w) := by
  unfold decodeBranch
  dsimp only
  cases condOfBits (field w 0 4) <;>
  repeat' first
    | exact Decoded.of_unknown w
    | exact Decoded.of_instr w _
    | apply Decoded.of_ite

theorem decode_of (haltWord w : InsnWord) : Decoded.Of w (decode haltWord w) := by
  unfold decode decodeDpImm decodeDpReg decodeLdst decodeSdt decodeLl
  dsimp only
  repeat' first
    | exact Decoded.of_unknown w
    | exact Decoded.of_instr w _
    | exact decodeBranch_of w
    | apply Decoded.of_ite

/-- The verdict UNKNOWN carries the word that was decoded (30_encoding.md R57). -/
theorem decode_unknown {haltWord w u : InsnWord} (h : decode haltWord w = .unknown u) : u = w := by
  rcases decode_of haltWord w with e | ⟨i, e⟩
  · exact Decoded.unknown.inj (h.symm.trans e)
  · exact absurd (h.symm.trans e) (by simp)

/-- The model's fetch is the word of the four bytes at pc (20_memory.md R46). -/
theorem State.fetch_eq (s : State) : s.fetch = Safety.wordAtPc s := by
  apply BitVec.eq_of_toNat_eq
  rw [State.fetch, BitVec.toNat_setWidth, readLE_toNat _ _ _ (by decide), Safety.wordAtPc, BitVec.toNat_ofNat,
    Safety.bytesVal]

/-- The condition evaluation is the meaning of the conditions (45_branch.md R161). -/
theorem condHolds_iff (c : Cond) (f : Flags) : condHolds c f = true ↔ Safety.condMeans c f := by
  obtain ⟨n, z, c', v⟩ := f
  cases c <;> cases z <;> simp [condHolds, Safety.condMeans]

/-- The model's peripheral test is membership in PERIPH_RANGE (00_scope.md R12). -/
theorem isPeriph_iff (s : State) (a : Word) : Params.isPeriph s.params a = true ↔ Safety.inPeriph s a := by
  simp [Params.isPeriph, Safety.inPeriph]

end Sys2Proof.Machine
end

