-- ==== Sys2Proof/Laws/PerInstr.lean ====
section
/-! SUPPORT. Statements for all instructions, made one instruction at a time. -/

namespace Sys2Proof.Laws.TableRow

/-- The word of an instruction meets the mask and the match of its own row of spec/opcode_table.json. -/
def Statement (i : Instr) : Prop :=
  ∀ haltWord : InsnWord, encode haltWord i &&& i.tableMask = i.tableMatch haltWord

/-! ## Layouts: the mask keeps the fixed bits and drops the fields -/

/-- A conjunction part by part. -/
theorem and_parts {v w : Nat} {x x' r : BitVec v} {y y' t : BitVec w} (h : x &&& x' = r) (h' : y &&& y' = t) :
    (x ++ y) &&& (x' ++ y') = r ++ t := by
  rw [append_and_append, h, h']

theorem layout_arithImm (opc : BitVec 2) (sz : OpSize) (sh : Bool) (imm12 : BitVec 12) (rn rd : RegIdx) :
    encodeArithImm opc sz sh imm12 rn rd &&& 0x7F800000#32 = 0#1 ++ opc ++ 0b100010#6 ++ 0#1 ++ 0#12 ++ 0#5 ++ 0#5 := by
  rw [show (0x7F800000#32 : InsnWord) = 0#1 ++ 0b11#2 ++ 0b111111#6 ++ 0#1 ++ 0#12 ++ 0#5 ++ 0#5 from by decide, encodeArithImm]
  repeat' apply and_parts
  all_goals first | exact BitVec.and_zero | exact BitVec.and_allOnes

theorem layout_wide (opc : BitVec 2) (sz : OpSize) (hw : BitVec 2) (imm16 : BitVec 16) (rd : RegIdx) :
    encodeWide opc sz hw imm16 rd &&& 0x7F800000#32 = 0#1 ++ opc ++ 0b100101#6 ++ 0#2 ++ 0#16 ++ 0#5 := by
  rw [show (0x7F800000#32 : InsnWord) = 0#1 ++ 0b11#2 ++ 0b111111#6 ++ 0#2 ++ 0#16 ++ 0#5 from by decide, encodeWide]
  repeat' apply and_parts
  all_goals first | exact BitVec.and_zero | exact BitVec.and_allOnes

theorem layout_arithReg (opc : BitVec 2) (sz : OpSize) (shift : ShiftType) (rm : RegIdx) (imm6 : BitVec 6) (rn rd : RegIdx) :
    encodeArithReg opc sz shift rm imm6 rn rd &&& 0x7F200000#32 = 0#1 ++ opc ++ 0b01011#5 ++ 0#2 ++ 0#1 ++ 0#5 ++ 0#6 ++ 0#5 ++ 0#5 := by
  rw [show (0x7F200000#32 : InsnWord) = 0#1 ++ 0b11#2 ++ 0b11111#5 ++ 0#2 ++ 0b1#1 ++ 0#5 ++ 0#6 ++ 0#5 ++ 0#5 from by decide, encodeArithReg]
  repeat' apply and_parts
  all_goals first | exact BitVec.and_zero | exact BitVec.and_allOnes

theorem layout_logic (opc : BitVec 2) (n : BitVec 1) (sz : OpSize) (shift : ShiftType) (rm : RegIdx) (imm6 : BitVec 6)
    (rn rd : RegIdx) :
    encodeLogic opc n sz shift rm imm6 rn rd &&& 0x7F200000#32 = 0#1 ++ opc ++ 0b01010#5 ++ 0#2 ++ n ++ 0#5 ++ 0#6 ++ 0#5 ++ 0#5 := by
  rw [show (0x7F200000#32 : InsnWord) = 0#1 ++ 0b11#2 ++ 0b11111#5 ++ 0#2 ++ 0b1#1 ++ 0#5 ++ 0#6 ++ 0#5 ++ 0#5 from by decide, encodeLogic]
  repeat' apply and_parts
  all_goals first | exact BitVec.and_zero | exact BitVec.and_allOnes

theorem layout_mul (x : BitVec 1) (sz : OpSize) (rm ra rn rd : RegIdx) :
    encodeMul x sz rm ra rn rd &&& 0x7FE08000#32 = 0#1 ++ 0b00#2 ++ 0b11011000#8 ++ 0#5 ++ x ++ 0#5 ++ 0#5 ++ 0#5 := by
  rw [show (0x7FE08000#32 : InsnWord) = 0#1 ++ 0b11#2 ++ 0b11111111#8 ++ 0#5 ++ 0b1#1 ++ 0#5 ++ 0#5 ++ 0#5 from by decide, encodeMul]
  repeat' apply and_parts
  all_goals first | exact BitVec.and_zero | exact BitVec.and_allOnes

theorem layout_unsigned (l : BitVec 1) (sz : OpSize) (imm12 : BitVec 12) (rn rt : RegIdx) :
    encodeUnsigned l sz imm12 rn rt &&& 0xBFC00000#32 = 0b1#1 ++ 0#1 ++ 0b11100#5 ++ 0b1#1 ++ 0b0#1 ++ l ++ 0#12 ++ 0#5 ++ 0#5 := by
  rw [show (0xBFC00000#32 : InsnWord) = 0b1#1 ++ 0#1 ++ 0b11111#5 ++ 0b1#1 ++ 0b1#1 ++ 0b1#1 ++ 0#12 ++ 0#5 ++ 0#5 from by decide, encodeUnsigned]
  repeat' apply and_parts
  all_goals first | exact BitVec.and_zero | exact BitVec.and_allOnes

theorem layout_indexed (l i : BitVec 1) (sz : OpSize) (simm9 : BitVec 9) (rn rt : RegIdx) :
    encodeIndexed l i sz simm9 rn rt &&& 0xBFE00C00#32 = 0b1#1 ++ 0#1 ++ 0b11100#5 ++ 0b0#1 ++ 0b0#1 ++ l ++ 0b0#1 ++ 0#9 ++ i ++ 0b1#1 ++ 0#5 ++ 0#5 := by
  rw [show (0xBFE00C00#32 : InsnWord) = 0b1#1 ++ 0#1 ++ 0b11111#5 ++ 0b1#1 ++ 0b1#1 ++ 0b1#1 ++ 0b1#1 ++ 0#9 ++ 0b1#1 ++ 0b1#1 ++ 0#5 ++ 0#5 from by decide, encodeIndexed]
  repeat' apply and_parts
  all_goals first | exact BitVec.and_zero | exact BitVec.and_allOnes

theorem layout_regOffset (l : BitVec 1) (sz : OpSize) (rm rn rt : RegIdx) :
    encodeRegOffset l sz rm rn rt &&& 0xBFE0FC00#32 = 0b1#1 ++ 0#1 ++ 0b11100#5 ++ 0b0#1 ++ 0b0#1 ++ l ++ 0b1#1 ++ 0#5 ++ 0b011010#6 ++ 0#5 ++ 0#5 := by
  rw [show (0xBFE0FC00#32 : InsnWord) = 0b1#1 ++ 0#1 ++ 0b11111#5 ++ 0b1#1 ++ 0b1#1 ++ 0b1#1 ++ 0b1#1 ++ 0#5 ++ 0b111111#6 ++ 0#5 ++ 0#5 from by decide, encodeRegOffset]
  repeat' apply and_parts
  all_goals first | exact BitVec.and_zero | exact BitVec.and_allOnes

theorem layout_ll (sz : OpSize) (simm19 : BitVec 19) (rt : RegIdx) :
    encodeLl sz simm19 rt &&& 0xBF000000#32 = 0b0#1 ++ 0#1 ++ 0b011000#6 ++ 0#19 ++ 0#5 := by
  rw [show (0xBF000000#32 : InsnWord) = 0b1#1 ++ 0#1 ++ 0b111111#6 ++ 0#19 ++ 0#5 from by decide, encodeLl]
  repeat' apply and_parts
  all_goals first | exact BitVec.and_zero | exact BitVec.and_allOnes

theorem layout_b (simm26 : BitVec 26) :
    encodeB simm26 &&& 0xFC000000#32 = 0b000101#6 ++ 0#26 := by
  rw [show (0xFC000000#32 : InsnWord) = 0b111111#6 ++ 0#26 from by decide, encodeB]
  repeat' apply and_parts
  all_goals first | exact BitVec.and_zero | exact BitVec.and_allOnes

theorem layout_br (rn : RegIdx) :
    encodeBr rn &&& 0xFFFFFC1F#32 = 0b1101011000011111000000#22 ++ 0#5 ++ 0#5 := by
  rw [show (0xFFFFFC1F#32 : InsnWord) = 0b1111111111111111111111#22 ++ 0#5 ++ 0b11111#5 from by decide, encodeBr]
  repeat' apply and_parts
  all_goals first | exact BitVec.and_zero | exact BitVec.and_allOnes

theorem layout_bCond (simm19 : BitVec 19) (cond : Cond) :
    encodeBCond simm19 cond &&& 0xFF000010#32 = 0b01010100#8 ++ 0#19 ++ 0#1 ++ 0#4 := by
  rw [show (0xFF000010#32 : InsnWord) = 0b11111111#8 ++ 0#19 ++ 0b1#1 ++ 0#4 from by decide, encodeBCond]
  repeat' apply and_parts
  all_goals first | exact BitVec.and_zero | exact BitVec.and_allOnes

/-! ## One lemma per instruction -/

theorem addImm (sz : OpSize) (sh : Bool) (imm12 : BitVec 12) (rn rd : RegIdx) : Statement (.addImm sz sh imm12 rn rd) :=
  fun _ => layout_arithImm _ sz sh imm12 rn rd

theorem addsImm (sz : OpSize) (sh : Bool) (imm12 : BitVec 12) (rn rd : RegIdx) : Statement (.addsImm sz sh imm12 rn rd) :=
  fun _ => layout_arithImm _ sz sh imm12 rn rd

theorem subImm (sz : OpSize) (sh : Bool) (imm12 : BitVec 12) (rn rd : RegIdx) : Statement (.subImm sz sh imm12 rn rd) :=
  fun _ => layout_arithImm _ sz sh imm12 rn rd

theorem subsImm (sz : OpSize) (sh : Bool) (imm12 : BitVec 12) (rn rd : RegIdx) : Statement (.subsImm sz sh imm12 rn rd) :=
  fun _ => layout_arithImm _ sz sh imm12 rn rd

theorem movn (sz : OpSize) (hw : BitVec 2) (imm16 : BitVec 16) (rd : RegIdx) : Statement (.movn sz hw imm16 rd) :=
  fun _ => layout_wide _ sz hw imm16 rd

theorem movz (sz : OpSize) (hw : BitVec 2) (imm16 : BitVec 16) (rd : RegIdx) : Statement (.movz sz hw imm16 rd) :=
  fun _ => layout_wide _ sz hw imm16 rd

theorem movk (sz : OpSize) (hw : BitVec 2) (imm16 : BitVec 16) (rd : RegIdx) : Statement (.movk sz hw imm16 rd) :=
  fun _ => layout_wide _ sz hw imm16 rd

theorem addReg (sz : OpSize) (shift : ShiftType) (rm : RegIdx) (imm6 : BitVec 6) (rn rd : RegIdx) : Statement (.addReg sz shift rm imm6 rn rd) :=
  fun _ => layout_arithReg _ sz shift rm imm6 rn rd

theorem addsReg (sz : OpSize) (shift : ShiftType) (rm : RegIdx) (imm6 : BitVec 6) (rn rd : RegIdx) : Statement (.addsReg sz shift rm imm6 rn rd) :=
  fun _ => layout_arithReg _ sz shift rm imm6 rn rd

theorem subReg (sz : OpSize) (shift : ShiftType) (rm : RegIdx) (imm6 : BitVec 6) (rn rd : RegIdx) : Statement (.subReg sz shift rm imm6 rn rd) :=
  fun _ => layout_arithReg _ sz shift rm imm6 rn rd

theorem subsReg (sz : OpSize) (shift : ShiftType) (rm : RegIdx) (imm6 : BitVec 6) (rn rd : RegIdx) : Statement (.subsReg sz shift rm imm6 rn rd) :=
  fun _ => layout_arithReg _ sz shift rm imm6 rn rd

theorem andReg (sz : OpSize) (shift : ShiftType) (rm : RegIdx) (imm6 : BitVec 6) (rn rd : RegIdx) : Statement (.andReg sz shift rm imm6 rn rd) :=
  fun _ => layout_logic _ _ sz shift rm imm6 rn rd

theorem bicReg (sz : OpSize) (shift : ShiftType) (rm : RegIdx) (imm6 : BitVec 6) (rn rd : RegIdx) : Statement (.bicReg sz shift rm imm6 rn rd) :=
  fun _ => layout_logic _ _ sz shift rm imm6 rn rd

theorem orrReg (sz : OpSize) (shift : ShiftType) (rm : RegIdx) (imm6 : BitVec 6) (rn rd : RegIdx) : Statement (.orrReg sz shift rm imm6 rn rd) :=
  fun _ => layout_logic _ _ sz shift rm imm6 rn rd

theorem ornReg (sz : OpSize) (shift : ShiftType) (rm : RegIdx) (imm6 : BitVec 6) (rn rd : RegIdx) : Statement (.ornReg sz shift rm imm6 rn rd) :=
  fun _ => layout_logic _ _ sz shift rm imm6 rn rd

theorem eorReg (sz : OpSize) (shift : ShiftType) (rm : RegIdx) (imm6 : BitVec 6) (rn rd : RegIdx) : Statement (.eorReg sz shift rm imm6 rn rd) :=
  fun _ => layout_logic _ _ sz shift rm imm6 rn rd

theorem eonReg (sz : OpSize) (shift : ShiftType) (rm : RegIdx) (imm6 : BitVec 6) (rn rd : RegIdx) : Statement (.eonReg sz shift rm imm6 rn rd) :=
  fun _ => layout_logic _ _ sz shift rm imm6 rn rd

theorem andsReg (sz : OpSize) (shift : ShiftType) (rm : RegIdx) (imm6 : BitVec 6) (rn rd : RegIdx) : Statement (.andsReg sz shift rm imm6 rn rd) :=
  fun _ => layout_logic _ _ sz shift rm imm6 rn rd

theorem bicsReg (sz : OpSize) (shift : ShiftType) (rm : RegIdx) (imm6 : BitVec 6) (rn rd : RegIdx) : Statement (.bicsReg sz shift rm imm6 rn rd) :=
  fun _ => layout_logic _ _ sz shift rm imm6 rn rd

theorem madd (sz : OpSize) (rm ra rn rd : RegIdx) : Statement (.madd sz rm ra rn rd) :=
  fun _ => layout_mul _ sz rm ra rn rd

theorem msub (sz : OpSize) (rm ra rn rd : RegIdx) : Statement (.msub sz rm ra rn rd) :=
  fun _ => layout_mul _ sz rm ra rn rd

theorem strUnsigned (sz : OpSize) (imm12 : BitVec 12) (rn rt : RegIdx) : Statement (.strUnsigned sz imm12 rn rt) :=
  fun _ => layout_unsigned _ sz imm12 rn rt

theorem ldrUnsigned (sz : OpSize) (imm12 : BitVec 12) (rn rt : RegIdx) : Statement (.ldrUnsigned sz imm12 rn rt) :=
  fun _ => layout_unsigned _ sz imm12 rn rt

theorem strPre (sz : OpSize) (simm9 : BitVec 9) (rn rt : RegIdx) : Statement (.strPre sz simm9 rn rt) :=
  fun _ => layout_indexed _ _ sz simm9 rn rt

theorem ldrPre (sz : OpSize) (simm9 : BitVec 9) (rn rt : RegIdx) : Statement (.ldrPre sz simm9 rn rt) :=
  fun _ => layout_indexed _ _ sz simm9 rn rt

theorem strPost (sz : OpSize) (simm9 : BitVec 9) (rn rt : RegIdx) : Statement (.strPost sz simm9 rn rt) :=
  fun _ => layout_indexed _ _ sz simm9 rn rt

theorem ldrPost (sz : OpSize) (simm9 : BitVec 9) (rn rt : RegIdx) : Statement (.ldrPost sz simm9 rn rt) :=
  fun _ => layout_indexed _ _ sz simm9 rn rt

theorem strReg (sz : OpSize) (rm rn rt : RegIdx) : Statement (.strReg sz rm rn rt) :=
  fun _ => layout_regOffset _ sz rm rn rt

theorem ldrReg (sz : OpSize) (rm rn rt : RegIdx) : Statement (.ldrReg sz rm rn rt) :=
  fun _ => layout_regOffset _ sz rm rn rt

theorem ldrLit (sz : OpSize) (simm19 : BitVec 19) (rt : RegIdx) : Statement (.ldrLit sz simm19 rt) :=
  fun _ => layout_ll sz simm19 rt

theorem b (simm26 : BitVec 26) : Statement (.b simm26) :=
  fun _ => layout_b simm26

theorem br (rn : RegIdx) : Statement (.br rn) :=
  fun _ => layout_br rn

theorem bCond (simm19 : BitVec 19) (cond : Cond) : Statement (.bCond simm19 cond) :=
  fun _ => layout_bCond simm19 cond

theorem halt : Statement .halt :=
  fun _ => BitVec.and_allOnes

end Sys2Proof.Laws.TableRow
end

