-- ==== Sys2Proof/Tests/Slice0.lean ====
section
/-! SUPPORT. The model's own tests: ill-formed terms, one decoded word per instruction, one-step runs whose expected values
are those of spec/95_test_vectors.md (named V<n>, X<n>, H<n>), and a witness for every obligation with hypotheses. -/

namespace Sys2Proof.Tests

open Sys2Proof.Machine Sys2Proof.Safety

/-! ## WellFormed refuses what a row's side condition excludes -/

theorem test_ill_formed_wide : (Instr.movz .w 2#2 1#16 0#5).wellFormed = false := by decide

theorem test_ill_formed_arith_ror : (Instr.addReg .x .ror 1#5 0#6 0#5 2#5).wellFormed = false := by decide

theorem test_ill_formed_arith_amount : (Instr.subsReg .w .lsl 1#5 32#6 0#5 2#5).wellFormed = false := by decide

theorem test_ill_formed_logic_amount : (Instr.eonReg .w .ror 1#5 32#6 0#5 2#5).wellFormed = false := by decide

/-- `and x0, x0, x0` is the HALT word (30_encoding.md R58). -/
theorem test_not_encodable_and_halt :
    (Instr.andReg .x .lsl 0#5 0#6 0#5 0#5).encodable Config.defaultHaltWord = false := by decide

/-! ## Decoding: the words of 30_encoding.md's layouts, one or more for each constructor -/

/-- X1: sf opc 100010 sh imm12 rn rd. -/
theorem test_decode_addImm : decode Config.defaultHaltWord 0b1_00_100010_0_000000000001_00001_00000#32 = .instr (.addImm .x false 1#12 1#5 0#5) := by decide

/-- X2. -/
theorem test_decode_addsImm : decode Config.defaultHaltWord 0b0_01_100010_1_111111111111_00100_00011#32 = .instr (.addsImm .w true 0xFFF#12 4#5 3#5) := by decide

/-- V8. -/
theorem test_decode_subImm : decode Config.defaultHaltWord 0b0_10_100010_1_000000000001_00001_00000#32 = .instr (.subImm .w true 1#12 1#5 0#5) := by decide

/-- X3. -/
theorem test_decode_subsImm : decode Config.defaultHaltWord 0b1_11_100010_0_000000000000_00001_11111#32 = .instr (.subsImm .x false 0#12 1#5 31#5) := by decide

/-- X6: sf opc 100101 hw imm16 rd. -/
theorem test_decode_movn : decode Config.defaultHaltWord 0b0_00_100101_00_0000000000000000_00010#32 = .instr (.movn .w 0#2 0#16 2#5) := by decide

/-- X4. -/
theorem test_decode_movz : decode Config.defaultHaltWord 0b1_10_100101_01_0001001000110100_00000#32 = .instr (.movz .x 1#2 0x1234#16 0#5) := by decide

/-- X5. -/
theorem test_decode_movk : decode Config.defaultHaltWord 0b1_11_100101_11_1011111011101111_00101#32 = .instr (.movk .x 3#2 0xBEEF#16 5#5) := by decide

/-- X9: sf opc 01011 shift 0 rm imm6 rn rd. -/
theorem test_decode_addReg : decode Config.defaultHaltWord 0b1_00_01011_00_0_00001_000000_00000_00010#32 = .instr (.addReg .x .lsl 1#5 0#6 0#5 2#5) := by decide

/-- V28. -/
theorem test_decode_addsReg : decode Config.defaultHaltWord 0b1_01_01011_00_0_00001_000000_00000_00010#32 = .instr (.addsReg .x .lsl 1#5 0#6 0#5 2#5) := by decide

/-- 43_dp_register.md R128, by the layout of R65. -/
theorem test_decode_subReg : decode Config.defaultHaltWord 0b1_10_01011_01_0_00011_000111_11111_00000#32 = .instr (.subReg .x .lsr 3#5 7#6 31#5 0#5) := by decide

/-- X10. -/
theorem test_decode_subsReg : decode Config.defaultHaltWord 0b1_11_01011_10_0_00101_111111_00100_00011#32 = .instr (.subsReg .x .asr 5#5 63#6 4#5 3#5) := by decide

/-- V48: sf opc 01010 shift N rm imm6 rn rd. -/
theorem test_decode_andReg : decode Config.defaultHaltWord 0b0_00_01010_10_0_00010_000100_00001_00000#32 = .instr (.andReg .w .asr 2#5 4#6 1#5 0#5) := by decide

/-- V37. -/
theorem test_decode_bicReg : decode Config.defaultHaltWord 0b1_00_01010_00_1_00010_000000_00001_00000#32 = .instr (.bicReg .x .lsl 2#5 0#6 1#5 0#5) := by decide

/-- X14. -/
theorem test_decode_orrReg : decode Config.defaultHaltWord 0b1_01_01010_00_0_00000_000000_11111_00001#32 = .instr (.orrReg .x .lsl 0#5 0#6 31#5 1#5) := by decide

/-- V45. -/
theorem test_decode_ornReg : decode Config.defaultHaltWord 0b0_01_01010_00_1_00001_000000_11111_00000#32 = .instr (.ornReg .w .lsl 1#5 0#6 31#5 0#5) := by decide

/-- V47. -/
theorem test_decode_eorReg : decode Config.defaultHaltWord 0b1_10_01010_11_0_00010_001000_00001_00000#32 = .instr (.eorReg .x .ror 2#5 8#6 1#5 0#5) := by decide

/-- X15. -/
theorem test_decode_eonReg : decode Config.defaultHaltWord 0b0_10_01010_11_1_00011_011111_00010_00001#32 = .instr (.eonReg .w .ror 3#5 31#6 2#5 1#5) := by decide

/-- V49. -/
theorem test_decode_andsReg : decode Config.defaultHaltWord 0b1_11_01010_00_0_00010_000000_00001_11111#32 = .instr (.andsReg .x .lsl 2#5 0#6 1#5 31#5) := by decide

/-- X16. -/
theorem test_decode_bicsReg : decode Config.defaultHaltWord 0b1_11_01010_01_1_00010_000001_00001_00000#32 = .instr (.bicsReg .x .lsr 2#5 1#6 1#5 0#5) := by decide

/-- X20: sf 00 11011000 rm x ra rn rd. -/
theorem test_decode_madd : decode Config.defaultHaltWord 0b1_00_11011000_00010_0_00011_00001_00000#32 = .instr (.madd .x 2#5 3#5 1#5 0#5) := by decide

/-- X21. -/
theorem test_decode_msub : decode Config.defaultHaltWord 0b0_00_11011000_00110_1_11111_00101_00100#32 = .instr (.msub .w 6#5 31#5 5#5 4#5) := by decide

/-- X23: 1 sf 11100 1 0 L imm12 rn rt. -/
theorem test_decode_strUnsigned : decode Config.defaultHaltWord 0b1_0_11100_1_0_0_000000000000_00010_00001#32 = .instr (.strUnsigned .w 0#12 2#5 1#5) := by decide

/-- X24. -/
theorem test_decode_ldrUnsigned : decode Config.defaultHaltWord 0b1_1_11100_1_0_1_000000000001_00001_00000#32 = .instr (.ldrUnsigned .x 1#12 1#5 0#5) := by decide

/-- V72: 1 sf 11100 0 0 L 0 simm9 I 1 rn rt. -/
theorem test_decode_strPre : decode Config.defaultHaltWord 0b1_1_11100_0_0_0_0_000001000_1_1_00001_00001#32 = .instr (.strPre .x 8#9 1#5 1#5) := by decide

/-- X25. -/
theorem test_decode_ldrPre : decode Config.defaultHaltWord 0b1_1_11100_0_0_1_0_111110000_1_1_00001_00000#32 = .instr (.ldrPre .x 0x1F0#9 1#5 0#5) := by decide

/-- X26. -/
theorem test_decode_strPost : decode Config.defaultHaltWord 0b1_0_11100_0_0_0_0_011111111_0_1_00100_00011#32 = .instr (.strPost .w 0xFF#9 4#5 3#5) := by decide

/-- 44_load_store.md R152, by the layout of 30_encoding.md R73. -/
theorem test_decode_ldrPost : decode Config.defaultHaltWord 0b1_1_11100_0_0_1_0_000001000_0_1_00001_00000#32 = .instr (.ldrPost .x 8#9 1#5 0#5) := by decide

/-- V64. -/
theorem test_decode_strReg : decode Config.defaultHaltWord 0b1_1_11100_0_0_0_1_00010_011010_00001_00000#32 = .instr (.strReg .x 2#5 1#5 0#5) := by decide

/-- X27: 1 sf 11100 0 0 L 1 rm 011010 rn rt. -/
theorem test_decode_ldrReg : decode Config.defaultHaltWord 0b1_1_11100_0_0_1_1_00010_011010_00001_00000#32 = .instr (.ldrReg .x 2#5 1#5 0#5) := by decide

/-- X32: 0 sf 011000 simm19 rt. -/
theorem test_decode_ldrLit : decode Config.defaultHaltWord 0b0_0_011000_1111111111111111111_00111#32 = .instr (.ldrLit .w 0x7FFFF#19 7#5) := by decide

/-- X34: 000101 simm26. -/
theorem test_decode_b : decode Config.defaultHaltWord 0b000101_11111111111111111111111111#32 = .instr (.b 0x3FFFFFF#26) := by decide

/-- X35. -/
theorem test_decode_br : decode Config.defaultHaltWord 0b1101011000011111000000_00001_00000#32 = .instr (.br 1#5) := by decide

/-- X39: 01010100 simm19 0 cond. -/
theorem test_decode_bCond : decode Config.defaultHaltWord 0b01010100_1111111111111111110_0_1101#32 = .instr (.bCond 0x7FFFE#19 .le) := by decide

/-- X17. -/
theorem test_decode_halt : decode Config.defaultHaltWord 0x8A000000#32 = .instr (.halt) := by decide

/-- The seven conditions by their codes (30_encoding.md R79; V88 to V102). -/
theorem test_decode_conditions :
    [0x54000040#32, 0x54000041#32, 0x5400004A#32, 0x5400004B#32, 0x5400004C#32, 0x5400004D#32, 0x5400004E#32].map
        (decode Config.defaultHaltWord) =
      [Cond.eq, .ne, .ge, .lt, .gt, .le, .al].map fun c => .instr (.bCond 2#19 c) := by decide

/-- The words of X7, X8, X11 to X13, X19, X22, X28 to X30, X37 and X40 to X45 are UNKNOWN. -/
theorem test_decode_unknown :
    [0x52C00000#32, 0x32800000#32, 0x8BC00000#32, 0x0B008000#32, 0x8B200000#32, 0x0A008000#32, 0x9B200000#32,
      0xB8607820#32, 0xF8400020#32, 0xB9800020#32, 0xD65F03C0#32, 0x54000002#32, 0x54000010#32, 0xB4000040#32,
      0xD503201F#32, 0x00000000#32, 0xFFFFFFFF#32].all
        (fun w => decode Config.defaultHaltWord w == .unknown w) = true := by decide

/-- Another `HALT_WORD` gives `and x0, x0, x0` its own meaning back, and takes the word it names (30_encoding.md R58). -/
theorem test_decode_other_halt_word :
    decode 0xD503201F#32 0x8A000000#32 = .instr (.andReg .x .lsl 0#5 0#6 0#5 0#5) ∧
      decode 0xD503201F#32 0xD503201F#32 = .instr .halt := by decide

/-- The bytes 20 04 00 91 are `add x0, x1, #1`; what follows them is left over (20_memory.md R38). -/
theorem test_decode_bytes :
    decodeBytes Config.defaultHaltWord [0x20#8, 0x04#8, 0x00#8, 0x91#8, 0x77#8] =
      .ok (.addImm .x false 1#12 1#5 0#5, [0x77#8]) := by decide

theorem test_decode_bytes_truncated :
    decodeBytes Config.defaultHaltWord [0x20#8, 0x04#8, 0x00#8] = .error .truncated := by decide

theorem test_decode_table_word : decodeTableWord 32 0x54000040 = some (.bCond 2#19 .eq) := by decide

/-- The encoder writes the words the spec writes for these instructions (X2, X15, X21, X26, X39). -/
theorem test_encode :
    [Instr.addsImm .w true 0xFFF#12 4#5 3#5, .eonReg .w .ror 3#5 31#6 2#5 1#5, .msub .w 6#5 31#5 5#5 4#5,
      .strPost .w 0xFF#9 4#5 3#5, .bCond 0x7FFFE#19 .le].map (encode Config.defaultHaltWord) =
      [0x317FFC83#32, 0x4AE37C41#32, 0x1B06FCA4#32, 0xB80FF483#32, 0x54FFFFCD#32] := by decide

/-! ## The Shift Engine -/

/-- H3, H7, H8, H11, H13, H15, H16, H17. -/
theorem test_shift :
    shift 0xFFFFFFFFFFFFFFFF#64 32 .lsl .x = 0xFFFFFFFF00000000#64 ∧
    shift 0x8000000000000000#64 1 .asr .x = 0xC000000000000000#64 ∧
    shift 0x123456789ABCDEF#64 4 .ror .x = 0xF0123456789ABCDE#64 ∧
    shift 1#64 1 .ror .w = 0x80000000#64 ∧
    shift 0x80000000#64 31 .asr .w = 0xFFFFFFFF#64 ∧
    shift 0x12345678#64 36 .ror .w = 0x81234567#64 ∧
    shift 0xFFFFFFFF#64 32 .lsl .w = 0#64 ∧
    shift 0x80000000#64 40 .asr .w = 0xFFFFFFFF#64 := by decide

/-! ## One step -/

/-- Flags from the letters of the vectors. -/
def fl (n z c v : Bool) : Flags := { n := n, z := z, c := c, v := v }

/-- The vectors' start: the word at pc, these registers, these flags, the rest at reset. -/
def start (w : Nat) (rs : List (RegIdx × Word)) (f : Flags := fl false true false false) (pc : Word := 0#64) : State :=
  (rs.foldl (fun (s : State) p => s.setX p.1 p.2) { State.reset with flags := f, pc := pc }).withFetchWord 32 w

/-- `start` with one 8-byte value in memory. -/
def withMem (s : State) (a : Nat) (v : Word) : State :=
  { s with mem := writeLE s.mem a 8 v }

/-- `start` with a `PERIPH_RANGE` of one address. -/
def withPeriph (s : State) (a : Nat) : State :=
  { s with params := { s.params with periphRange := [{ base := a, size := 1 }] } }

/-- One step gives a next state with these flags, this pc and this property. -/
def ends (s : State) (f : Flags) (pc : Word) (p : State → Bool) : Bool :=
  match step s with
  | .next t => t.flags == f && t.pc == pc && p t
  | _ => false

/-- V3. -/
theorem test_add_imm_wraps_w :
    ends (start 0x11000420 [(0#5, 0x77#64), (1#5, 0x12345678FFFFFFFF#64)]) (fl false true false false) 0x4#64
      (fun t => t.x 0#5 == 0x0#64) = true := by decide

/-- V14. -/
theorem test_add_imm_xzr_no_flags :
    ends (start 0x9100043F [(1#5, 0xFFFFFFFFFFFFFFFF#64)] (fl false false false false)) (fl false false false false) 0x4#64
      (fun t => t.x 31#5 == 0x0#64) = true := by decide

/-- V5. -/
theorem test_adds_imm_carry :
    ends (start 0xB1000400 [(0#5, 0xFFFFFFFFFFFFFFFF#64)] (fl false false false false)) (fl false true true false) 0x4#64
      (fun t => t.x 0#5 == 0x0#64) = true := by decide

/-- V6. -/
theorem test_adds_imm_overflow :
    ends (start 0xB1000420 [(1#5, 0x7FFFFFFFFFFFFFFF#64)]) (fl true false false true) 0x4#64
      (fun t => t.x 0#5 == 0x8000000000000000#64) = true := by decide

/-- V8. -/
theorem test_sub_imm_shifted :
    ends (start 0x51400420 [(0#5, 0x77#64), (1#5, 0xFFFFFFFF00001000#64)]) (fl false true false false) 0x4#64
      (fun t => t.x 0#5 == 0x0#64) = true := by decide

/-- V9. -/
theorem test_sub_imm_borrow :
    ends (start 0xD1000420 [(1#5, 0x0#64)]) (fl false true false false) 0x4#64
      (fun t => t.x 0#5 == 0xFFFFFFFFFFFFFFFF#64) = true := by decide

/-- V10. -/
theorem test_subs_imm_overflow_w :
    ends (start 0x71000420 [(1#5, 0x80000000#64)]) (fl false false true true) 0x4#64
      (fun t => t.x 0#5 == 0x7FFFFFFF#64) = true := by decide

/-- V12. -/
theorem test_subs_imm_cmp :
    ends (start 0xF100143F [(1#5, 0x3#64)]) (fl true false false false) 0x4#64
      (fun t => t.x 1#5 == 0x3#64) = true := by decide

/-- V16. -/
theorem test_movz_lane :
    ends (start 0xD2A24680 [(0#5, 0xFFFFFFFFFFFFFFFF#64)]) (fl false true false false) 0x4#64
      (fun t => t.x 0#5 == 0x12340000#64) = true := by decide

/-- V23. -/
theorem test_movz_xzr :
    ends (start 0xD280003F []) (fl false true false false) 0x4#64
      (fun t => t.x 31#5 == 0x0#64) = true := by decide

/-- V19. -/
theorem test_movn_w :
    ends (start 0x12800000 []) (fl false true false false) 0x4#64
      (fun t => t.x 0#5 == 0xFFFFFFFF#64) = true := by decide

/-- V20. -/
theorem test_movn_lane :
    ends (start 0x92C24680 []) (fl false true false false) 0x4#64
      (fun t => t.x 0#5 == 0xFFFFEDCBFFFFFFFF#64) = true := by decide

/-- V21. -/
theorem test_movk_top_lane :
    ends (start 0xF2F7DDE0 [(0#5, 0x1111222233334444#64)]) (fl false true false false) 0x4#64
      (fun t => t.x 0#5 == 0xBEEF222233334444#64) = true := by decide

/-- V22. -/
theorem test_movk_w :
    ends (start 0x7297DDE0 [(0#5, 0x1111222233334444#64)]) (fl false true false false) 0x4#64
      (fun t => t.x 0#5 == 0x3333BEEF#64) = true := by decide

/-- V26. -/
theorem test_add_reg_asr :
    ends (start 0x8B81FC02 [(0#5, 0xA#64), (1#5, 0x8000000000000000#64)]) (fl false true false false) 0x4#64
      (fun t => t.x 2#5 == 0x9#64) = true := by decide

/-- V33. -/
theorem test_add_reg_xzr_flags :
    ends (start 0x8B01001F [(0#5, 0xFFFFFFFFFFFFFFFF#64), (1#5, 0x1#64)] (fl false false false false)) (fl false true true false) 0x4#64
      (fun t => t.x 31#5 == 0x0#64) = true := by decide

/-- V28. -/
theorem test_adds_reg_carry_overflow :
    ends (start 0xAB010002 [(0#5, 0x8000000000000000#64), (1#5, 0x8000000000000000#64), (2#5, 0x77#64)]) (fl false true true true) 0x4#64
      (fun t => t.x 2#5 == 0x0#64) = true := by decide

/-- V29. -/
theorem test_sub_reg_no_flags :
    ends (start 0xCB010002 [(0#5, 0x3#64), (1#5, 0x5#64)] (fl false false false false)) (fl false false false false) 0x4#64
      (fun t => t.x 2#5 == 0xFFFFFFFFFFFFFFFE#64) = true := by decide

/-- V34. -/
theorem test_sub_reg_xzr_flags :
    ends (start 0xCB01001F [(0#5, 0x1#64), (1#5, 0x2#64)]) (fl true false false false) 0x4#64
      (fun t => t.x 31#5 == 0x0#64) = true := by decide

/-- V31. -/
theorem test_subs_reg_overflow_w :
    ends (start 0x6B010002 [(0#5, 0x7FFFFFFF#64), (1#5, 0xFFFFFFFF#64)]) (fl true false false true) 0x4#64
      (fun t => t.x 2#5 == 0x80000000#64) = true := by decide

/-- V48. -/
theorem test_and_reg_asr_w :
    ends (start 0x0A821020 [(1#5, 0xFFFFFFFF#64), (2#5, 0x80000000#64)]) (fl false true false false) 0x4#64
      (fun t => t.x 0#5 == 0xF8000000#64) = true := by decide

/-- V37. -/
theorem test_bic_reg :
    ends (start 0x8A220020 [(1#5, 0xF0F0F0F0F0F0F0F0#64), (2#5, 0xFF00FF00FF00FF00#64)]) (fl false true false false) 0x4#64
      (fun t => t.x 0#5 == 0xF000F000F000F0#64) = true := by decide

/-- V38. -/
theorem test_orr_reg :
    ends (start 0xAA020020 [(1#5, 0xF0F0F0F0F0F0F0F0#64), (2#5, 0xFF00FF00FF00FF00#64)]) (fl false true false false) 0x4#64
      (fun t => t.x 0#5 == 0xFFF0FFF0FFF0FFF0#64) = true := by decide

/-- V50. -/
theorem test_orr_reg_xzr_flags :
    ends (start 0xAA02003F [(1#5, 0x0#64), (2#5, 0x0#64)] (fl true false true true)) (fl false true false false) 0x4#64
      (fun t => t.x 31#5 == 0x0#64) = true := by decide

/-- V45. -/
theorem test_orn_reg_w :
    ends (start 0x2A2103E0 [(1#5, 0xFFFF#64)]) (fl false true false false) 0x4#64
      (fun t => t.x 0#5 == 0xFFFF0000#64) = true := by decide

/-- V47. -/
theorem test_eor_reg_ror :
    ends (start 0xCAC22020 [(1#5, 0x0#64), (2#5, 0xFF#64)]) (fl false true false false) 0x4#64
      (fun t => t.x 0#5 == 0xFF00000000000000#64) = true := by decide

/-- V41. -/
theorem test_eon_reg :
    ends (start 0xCA220020 [(1#5, 0xF0F0F0F0F0F0F0F0#64), (2#5, 0xFF00FF00FF00FF00#64)]) (fl false true false false) 0x4#64
      (fun t => t.x 0#5 == 0xF00FF00FF00FF00F#64) = true := by decide

/-- V42. -/
theorem test_ands_reg :
    ends (start 0xEA020020 [(1#5, 0xF0F0F0F0F0F0F0F0#64), (2#5, 0xFF00FF00FF00FF00#64)] (fl false false true true)) (fl true false false false) 0x4#64
      (fun t => t.x 0#5 == 0xF000F000F000F000#64) = true := by decide

/-- V44. -/
theorem test_bics_reg :
    ends (start 0xEA220020 [(1#5, 0xF0F0F0F0F0F0F0F0#64), (2#5, 0xFF00FF00FF00FF00#64)] (fl false true true true)) (fl false false false false) 0x4#64
      (fun t => t.x 0#5 == 0xF000F000F000F0#64) = true := by decide

/-- V53 and V56. -/
theorem test_madd_keeps_flags :
    ends (start 0x1B020C20 [(1#5, 0x10000#64), (2#5, 0x10000#64), (3#5, 0x5#64)] (fl true false true true)) (fl true false true true) 0x4#64
      (fun t => t.x 0#5 == 0x5#64) = true := by decide

/-- V54. -/
theorem test_msub :
    ends (start 0x9B028C20 [(1#5, 0x3#64), (2#5, 0x4#64), (3#5, 0xA#64)]) (fl false true false false) 0x4#64
      (fun t => t.x 0#5 == 0xFFFFFFFFFFFFFFFE#64) = true := by decide

/-- V58. -/
theorem test_str_unsigned_w :
    ends (start 0xB9000441 [(1#5, 0x1122334455667788#64), (2#5, 0x1000#64)]) (fl false true false false) 0x4#64
      (fun t => readLE t.mem 0x1000 8 == 0x5566778800000000#64) = true := by decide

/-- V59. -/
theorem test_ldr_unsigned_scaled :
    ends (withMem (start 0xF9400420 [(1#5, 0x1000#64)]) 0x1008 0xCAFEBABE12345678#64) (fl false true false false) 0x4#64
      (fun t => t.x 0#5 == 0xCAFEBABE12345678#64) = true := by decide

/-- V67. -/
theorem test_ldr_unsigned_straddles :
    ends (start 0xF9400020 [(0#5, 0x1234#64), (1#5, 0x1FFFFC#64)]) (fl false true false false) 0x4#64
      (fun t => t.x 0#5 == 0x0#64 && t.diagLog == [.oobLoad 0x1FFFFC#64 .x]) = true := by decide

/-- V72. -/
theorem test_str_pre_new_base :
    ends (start 0xF8008C21 [(1#5, 0x1000#64)]) (fl false true false false) 0x4#64
      (fun t => t.x 1#5 == 0x1008#64 && readLE t.mem 0x1008 8 == 0x1008#64) = true := by decide

/-- V70. -/
theorem test_ldr_pre_load_wins :
    ends (withMem (start 0xF8408C21 [(1#5, 0x1000#64)]) 0x1008 0x42#64) (fl false true false false) 0x4#64
      (fun t => t.x 1#5 == 0x42#64) = true := by decide

/-- V69. -/
theorem test_ldr_pre_oob_write_back :
    ends (start 0xF8408C20 [(0#5, 0x7#64), (1#5, 0x1FFFF8#64)]) (fl false true false false) 0x4#64
      (fun t => t.x 0#5 == 0x0#64 && t.x 1#5 == 0x200000#64 && t.diagLog == [.oobLoad 0x200000#64 .x]) = true := by decide

/-- V62. -/
theorem test_str_post :
    ends (start 0xB80FF483 [(3#5, 0xDEADBEEF#64), (4#5, 0x1000#64)]) (fl false true false false) 0x4#64
      (fun t => t.x 4#5 == 0x10FF#64 && readLE t.mem 0x1000 8 == 0xDEADBEEF#64) = true := by decide

/-- V71 by its end state (assumption log 24). -/
theorem test_str_post_same_register :
    ends (start 0xF8008421 [(1#5, 0x1000#64)]) (fl false true false false) 0x4#64
      (fun t => t.x 1#5 == 0x1008#64 && readLE t.mem 0x1000 8 == 0x1008#64) = true := by decide

/-- 44_load_store.md R152: the access is at the old base. -/
theorem test_ldr_post :
    ends (withMem (start 0xF8408420 [(1#5, 0x1000#64)]) 0x1000 0x55#64) (fl false true false false) 0x4#64
      (fun t => t.x 0#5 == 0x55#64 && t.x 1#5 == 0x1008#64) = true := by decide

/-- V63. -/
theorem test_ldr_reg_negative :
    ends (withMem (start 0xF8626820 [(1#5, 0x1000#64), (2#5, 0xFFFFFFFFFFFFFFF8#64)]) 0xFF8 0x77#64) (fl false true false false) 0x4#64
      (fun t => t.x 0#5 == 0x77#64) = true := by decide

/-- V64. -/
theorem test_str_reg :
    ends (start 0xF8226820 [(0#5, 0x55#64), (1#5, 0x1000#64), (2#5, 0x10#64)]) (fl false true false false) 0x4#64
      (fun t => readLE t.mem 0x1010 8 == 0x55#64) = true := by decide

/-- V68, in the register-offset form (44_load_store.md R155). -/
theorem test_str_reg_oob :
    ends (start 0xF8226820 [(0#5, 0x1234#64), (1#5, 0x200000#64)]) (fl false true false false) 0x4#64
      (fun t => t.diagLog == [.oobStore 0x200000#64 .x] && t.mem == (start 0xF8226820 []).mem) = true := by decide

/-- V78: the word before pc. -/
theorem test_ldr_lit_backward :
    ends (Machine.State.memWrite (start 0x18FFFFE0 [] (fl false true false false) 0x4#64) 0#64 .w 0xAABBCCDD#64) (fl false true false false) 0x8#64
      (fun t => t.x 0#5 == 0xAABBCCDD#64) = true := by decide

/-- V79. -/
theorem test_ldr_lit_wraps :
    ends (start 0x58FFFFE0 [(0#5, 0x5#64)]) (fl false true false false) 0x4#64
      (fun t => t.x 0#5 == 0x0#64 && t.diagLog == [.oobLoad 0xFFFFFFFFFFFFFFFC#64 .x]) = true := by decide

/-- V75: an event, and no byte changes. -/
theorem test_str_peripheral :
    ends (withPeriph (start 0xB9000041 [(1#5, 0xABCD#64), (2#5, 0x2000#64)]) 0x2000) (fl false true false false) 0x4#64
      (fun t => t.periphEvents == [{ addr := 0x2000#64, size := .w, value := 0xABCD#64 }] && readLE t.mem 0x2000 8 == 0#64) = true := by decide

/-- V81. -/
theorem test_b_backward :
    ends (start 0x17FFFFFF [] (fl false true false false) 0x8#64) (fl false true false false) 0x4#64
      (fun t => t.stop == .none) = true := by decide

/-- V82. -/
theorem test_b_self_sticks :
    ends (start 0x14000000 [] (fl false true false false) 0x4#64) (fl false true false false) 0x4#64
      (fun t => t.stop == .stuckPc) = true := by decide

/-- V84. -/
theorem test_br_misaligned_target :
    ends (start 0xD61F0020 [(1#5, 0x42#64)]) (fl false true false false) 0x42#64
      (fun t => t.stop == .none) = true := by decide

/-- V86. -/
theorem test_br_xzr_sticks :
    ends (start 0xD61F03E0 [] (fl false true false false) 0x4#64) (fl false true false false) 0x4#64
      (fun t => t.stop == .stuckPc && !t.pcWritten) = true := by decide

/-- V103. -/
theorem test_b_cond_taken_at_reset :
    ends (start 0x54000040 []) (fl false true false false) 0x8#64
      (fun t => t.stop == .none) = true := by decide

/-- V100. -/
theorem test_b_cond_le_on_v :
    ends (start 0x5400004D [] (fl false false false true)) (fl false false false true) 0x8#64
      (fun t => t.stop == .none) = true := by decide

/-- V106. -/
theorem test_halt :
    ends (start 0x8A000000 []) (fl false true false false) 0x0#64
      (fun t => t.stop == .halt && t.diagLog == []) = true := by decide

/-- V108. -/
theorem test_unknown_stops :
    ends (start 0xD503201F []) (fl false true false false) 0x0#64
      (fun t => t.stop == .undefinedInsn && t.diagLog == [.undefinedInsn 0#64 0xD503201F#32]) = true := by decide

/-- V109. -/
theorem test_last_word_runs :
    ends (start 0x91000400 [] (fl false true false false) 0x1FFFFC#64) (fl false true false false) 0x200000#64
      (fun t => t.x 0#5 == 0x1#64 && t.stop == .none) = true := by decide

/-- V112. -/
theorem test_pc_oob_before_alignment :
    ends (start 0x00000000 [] (fl false true false false) 0x1FFFFE#64) (fl false true false false) 0x1FFFFE#64
      (fun t => t.stop == .pcOob && t.diagLog == [.pcOob 0x1FFFFE#64]) = true := by decide

/-- V111. -/
theorem test_pc_misaligned :
    ends (start 0x00000000 [] (fl false true false false) 0x42#64) (fl false true false false) 0x42#64
      (fun t => t.stop == .pcMisaligned && t.diagLog == [.pcMisaligned 0x42#64]) = true := by decide

/-- The dump lists non-zero aligned words and the flag string (60_exceptions.md R192). -/
theorem test_dump :
    let d := (withMem State.reset 6 0x0000000011223344#64).dump
    d.words = [(4, 0x33440000#32), (8, 0x1122#32)] ∧ d.flags = "-Z--" := by decide

/-- An image starts at address 0, and its zero bytes list no cell (70_reset_and_hazards.md R196). -/
theorem test_boot :
    (State.boot Params.default [0xA0#8, 0#8, 0x80#8]).mem.cells = [(0, 0xA0#8), (2, 0x80#8)] := by decide

/-! ## Witnesses: a concrete state and operands for the hypotheses of every obligation, clause by clause -/

/-- One step gives a next state with this property. -/
def steps (s : State) (p : State → Bool) : Bool :=
  match step s with
  | .next t => p t
  | _ => false

theorem next_of_steps {s : State} {p : State → Bool} (h : steps s p = true) : ∃ t, step s = .next t ∧ p t = true := by
  unfold steps at h
  split at h
  · exact ⟨_, ‹_›, h⟩
  · cases h

/-- `i` gives a next state with this property. -/
def execs (i : Instr) (s : State) (p : State → Bool) : Bool :=
  match exec i s with
  | .next t => p t
  | _ => false

theorem next_of_execs {i : Instr} {s : State} {p : State → Bool} (h : execs i s p = true) :
    ∃ t, exec i s = .next t ∧ p t = true := by
  unfold execs at h
  split at h
  · exact ⟨_, ‹_›, h⟩
  · cases h

/-- `k` steps give a next state with this property. -/
def runs (k : Nat) (s : State) (p : State → Bool) : Bool :=
  match run k s with
  | .next t => p t
  | _ => false

theorem next_of_runs {k : Nat} {s : State} {p : State → Bool} (h : runs k s p = true) :
    ∃ t, run k s = .next t ∧ p t = true := by
  unfold runs at h
  split at h
  · exact ⟨_, ‹_›, h⟩
  · cases h

theorem decodes {s : State} {d : Decoded} (h : decode s.params.haltWord s.fetch = d) :
    decode s.params.haltWord (wordAtPc s) = d := by
  rwa [← s.fetch_eq]

theorem inv_of_fresh {s : State} (hm : s.mem.wf = true) (hp : s.pcWritten = false) (he : s.periphEvents = [])
    (hd : s.diagLog = []) (hs : s.stop = .none) : Inv s := by
  refine ⟨hm, hp, ?_, ?_, ?_⟩
  · rw [he]; intro e h; cases h
  · rw [hd]; intro pc w h; cases h
  · rw [StopExplained, hs]; trivial

/-- `StepRunsTheDecodedInstruction`, its four clauses: HALT, `b .`, `b .+8`, `add x0, x1, #1`. -/
theorem witness_step_runs_halt :
    let s := start 0x8A000000 []
    Fetches s ∧ decode s.params.haltWord (wordAtPc s) = .instr .halt ∧ ∃ t, exec .halt s = .next t :=
  ⟨⟨by decide, by decide, by decide⟩, decodes (by decide), _, rfl⟩

theorem witness_step_runs_stuck :
    let s := start 0x14000000 []
    Fetches s ∧ decode s.params.haltWord (wordAtPc s) = .instr (.b 0#26) ∧
      ∃ t, exec (.b 0#26) s = .next t ∧ (t.pcWritten && t.pc == s.pc) = true :=
  ⟨⟨by decide, by decide, by decide⟩, decodes (by decide), next_of_execs (by decide)⟩

theorem witness_step_runs_branch :
    let s := start 0x14000002 []
    Fetches s ∧ decode s.params.haltWord (wordAtPc s) = .instr (.b 2#26) ∧
      ∃ t, exec (.b 2#26) s = .next t ∧ (t.pcWritten && t.pc != s.pc) = true :=
  ⟨⟨by decide, by decide, by decide⟩, decodes (by decide), next_of_execs (by decide)⟩

theorem witness_step_runs_advance :
    let s := start 0x91000420 []
    Fetches s ∧ decode s.params.haltWord (wordAtPc s) = .instr (.addImm .x false 1#12 1#5 0#5) ∧
      ∃ t, exec (.addImm .x false 1#12 1#5 0#5) s = .next t ∧ (!t.pcWritten) = true :=
  ⟨⟨by decide, by decide, by decide⟩, decodes (by decide), next_of_execs (by decide)⟩

/-- `DecodeOfEncodeIsTheInstruction`, `OpcodeTableRowsAreDisjoint`: encodable instructions at the edges of the side
conditions, other than HALT. -/
theorem witness_encodable :
    ([Instr.movk .w 1#2 0xFFFF#16 31#5, .movz .x 3#2 0#16 0#5, .addReg .w .asr 31#5 31#6 0#5 1#5,
      .subsReg .x .asr 31#5 63#6 0#5 1#5, .eonReg .w .ror 1#5 31#6 2#5 3#5, .andReg .x .lsl 0#5 0#6 0#5 1#5].all
      fun i => i.encodable Config.defaultHaltWord && i != .halt) = true := by decide

/-- `EncodeOfDecodeIsTheWord`. -/
theorem witness_decode : decode Config.defaultHaltWord 0xD61F03E0#32 = .instr (.br 31#5) := by decide

/-- `UnknownAreExactlyTheWordsOfNoInstruction`, `HaltWordIsDecodedBeforeTheFamilies`: both sides occur. -/
theorem witness_unknown :
    decode Config.defaultHaltWord 0x54000010#32 = .unknown 0x54000010#32 ∧
      decode Config.defaultHaltWord Config.defaultHaltWord = .instr .halt := by decide

/-- `StoppedMachineNeverChanges`. -/
theorem witness_stopped : { State.reset with stop := .halt }.stop ≠ .none := by decide

/-- `PcChecksStopInTheirOrder`, `MisalignedPcStopsAndOnlyBrMakesOne` (its first clause): the first pc out of bounds, and
the last misaligned one inside. -/
theorem witness_pc_checks :
    let s : State := { State.reset with pc := 0x1FFFFD#64 }
    let t : State := { State.reset with pc := 0x1FFFFB#64 }
    s.stop = .none ∧ Config.memSize < s.pc.toNat + 4 ∧
      t.stop = .none ∧ t.pc.toNat + 4 ≤ Config.memSize ∧ t.pc.toNat % 4 ≠ 0 := by decide

/-- `MisalignedPcStopsAndOnlyBrMakesOne`, its last clause: V84. -/
theorem witness_br_misaligned :
    let s := start 0xD61F0020 [(1#5, 0x42#64)]
    Fetches s ∧ ∃ t, step s = .next t ∧ (t.pc.toNat % 4 != 0) = true :=
  ⟨⟨by decide, by decide, by decide⟩, next_of_steps (by decide)⟩

/-- `UnknownWordStopsTheRun`: the last word of memory. -/
theorem witness_unknown_stops :
    let s := start 0xD503201F [] (fl false true false false) 0x1FFFFC#64
    Fetches s ∧ decode s.params.haltWord (wordAtPc s) = .unknown 0xD503201F#32 :=
  ⟨⟨by decide, by decide, by decide⟩, decodes (by decide)⟩

/-- `HaltStopsTheRunAtItsOwnAddress`. -/
theorem witness_halt_stops :
    let s := start 0x8A000000 []
    Inv s ∧ Fetches s ∧ wordAtPc s = s.params.haltWord :=
  ⟨inv_of_fresh (by decide) (by decide) (by decide) (by decide) (by decide), ⟨by decide, by decide, by decide⟩,
    by rw [← State.fetch_eq]; decide⟩

/-- `ExactlySelfBranchesStick`: `b .`, `b.al .`, `br xzr` and `br x1` to its own address, each of which sticks. -/
theorem witness_stick_b :
    let s := start 0x14000000 []
    Inv s ∧ Fetches s ∧ decode s.params.haltWord (wordAtPc s) = .instr (.b 0#26) ∧
      ∃ t, step s = .next t ∧ (t.stop == .stuckPc) = true :=
  ⟨inv_of_fresh (by decide) (by decide) (by decide) (by decide) (by decide), ⟨by decide, by decide, by decide⟩,
    decodes (by decide), next_of_steps (by decide)⟩

theorem witness_stick_b_cond :
    let s := start 0x5400000E []
    Inv s ∧ Fetches s ∧ decode s.params.haltWord (wordAtPc s) = .instr (.bCond 0#19 .al) ∧ condMeans .al s.flags ∧
      ∃ t, step s = .next t ∧ (t.stop == .stuckPc) = true :=
  ⟨inv_of_fresh (by decide) (by decide) (by decide) (by decide) (by decide), ⟨by decide, by decide, by decide⟩,
    decodes (by decide), trivial, next_of_steps (by decide)⟩

theorem witness_stick_br_xzr :
    let s := start 0xD61F03E0 []
    Inv s ∧ Fetches s ∧ decode s.params.haltWord (wordAtPc s) = .instr (.br zeroReg) ∧
      ∃ t, step s = .next t ∧ (t.stop == .stuckPc) = true :=
  ⟨inv_of_fresh (by decide) (by decide) (by decide) (by decide) (by decide), ⟨by decide, by decide, by decide⟩,
    decodes (by decide), next_of_steps (by decide)⟩

theorem witness_stick_br :
    let s := start 0xD61F0020 [(1#5, 4#64)] (fl false true false false) 4#64
    Inv s ∧ Fetches s ∧ decode s.params.haltWord (wordAtPc s) = .instr (.br 1#5) ∧ s.x 1#5 = s.pc ∧
      ∃ t, step s = .next t ∧ (t.stop == .stuckPc) = true :=
  ⟨inv_of_fresh (by decide) (by decide) (by decide) (by decide) (by decide), ⟨by decide, by decide, by decide⟩,
    decodes (by decide), by decide, next_of_steps (by decide)⟩

/-- `StopsArePrecise`. -/
theorem witness_stop :
    let s := start 0xD503201F []
    s.stop = .none ∧ ∃ t, step s = .next t ∧ (t.stop != .none) = true :=
  ⟨by decide, next_of_steps (by decide)⟩

/-- `StepRecordsAtMostOneDiagnostic`: a load out of bounds by one byte (V67 has the address). -/
theorem witness_diagnostic :
    let s := start 0xF9400020 [(1#5, 0x1FFFF9#64)]
    s.stop = .none ∧ ∃ t, step s = .next t ∧ (t.diagLog == [.oobLoad 0x1FFFF9#64 .x]) = true :=
  ⟨by decide, next_of_steps (by decide)⟩

/-- `LogsOnlyGrowAlongARun`, `NoStepChangesTheParameters`, `EmptyPeriphRangeIsPlainMemory`: a run that ends by HALT. -/
theorem witness_run :
    let s := withMem (start 0xD28000A0 []) 0 0x8A000000D28000A0#64
    s.params.periphRange = [] ∧ ∃ t, run 2 s = .next t ∧ (ranCorrectly t && t.x 0#5 == 5#64) = true :=
  ⟨by decide, next_of_runs (by decide)⟩

/-- `InvariantKeptByEveryStep`: a store to the peripheral (V75). -/
theorem witness_invariant :
    let s := withPeriph (start 0xB9000041 [(1#5, 0xABCD#64), (2#5, 0x2000#64)]) 0x2000
    Inv s ∧ ∃ t, step s = .next t ∧ (t.periphEvents.length == 1) = true :=
  ⟨inv_of_fresh (by decide) (by decide) (by decide) (by decide) (by decide), next_of_steps (by decide)⟩

/-- `FlagsAreWrittenAndReadOnlyWhereListed`: a form without S writes the flags with rd = 31 and not with rd = 0. -/
theorem witness_flags :
    flagWriter (.addReg .x .lsl 1#5 0#6 2#5 0#5) = false ∧ flagWriter (.addReg .x .lsl 1#5 0#6 2#5 31#5) = true ∧
      flagReader (.addReg .x .lsl 1#5 0#6 2#5 0#5) = false := by decide

/-- `OnlyBranchesReportThatTheyWrotePc`, its second clause. -/
theorem witness_report :
    let s := start 0x14000002 []
    s.pcWritten = false ∧ ∃ t, step s = .next t ∧ (t.pc == 8#64) = true :=
  ⟨by decide, next_of_steps (by decide)⟩

/-- `RegistersReadAndWrittenAreTheListedOnes`: register 3 is neither read nor written; 0 is written and not read. -/
theorem witness_registers :
    3#5 ∉ destRegs (.ldrPost .x 8#9 1#5 0#5) ∧ 3#5 ∉ sourceRegs (.ldrPost .x 8#9 1#5 0#5) ∧
      0#5 ∈ destRegs (.ldrPost .x 8#9 1#5 0#5) ∧ 0#5 ∉ sourceRegs (.ldrPost .x 8#9 1#5 0#5) := by decide

/-- `MoveZeroAndMoveNotResult`, `MoveKeepResult`, `UnsignedImmediatesAreScaled`: the last lane of each width. -/
theorem witness_wide : wideOk .w 1#2 = true ∧ wideOk .x 3#2 = true := by decide

/-- `ShiftEngineRequiredProperties`: amounts 0 and W − 1, and a negative value. -/
theorem witness_shift :
    0 < OpSize.w.bits ∧ 31 < OpSize.w.bits ∧ 63 < OpSize.x.bits ∧ (0x8000000000000000#64).getLsbD 63 = true := by decide

/-- `InvalidModeRecordsAndDoesNothingElse`: a literal with a base, a base mode without one, and fields of another mode. -/
theorem witness_invalid_mode :
    (AddrQuery.mk .loadLiteral .x (some 0#5) (.simm19 0#19)).base ≠ none ∧
      (AddrQuery.mk .preIndexed .x none (.simm9 0#9)).mode ≠ .loadLiteral ∧
      State.reset.resolve (.mk .preIndexed .x (some 0#5) (.imm12 0#12)) = none := by decide

/-- `MemReadGivesTheLittleEndianSum`, `MemWriteStoresTheLittleEndianBytes`, `LoadReturnsWhatWasStored`: the last access in
bounds and the first out of bounds, of both sizes, a byte stored to and one beside it, and accesses that do not meet. -/
theorem witness_memory :
    State.reset.mem.wf = true ∧ (0x1FFFFC#64 : Word).toNat + OpSize.w.bytes ≤ Config.memSize ∧
      (0x1FFFF8#64 : Word).toNat + OpSize.x.bytes ≤ Config.memSize ∧
      Config.memSize < (0x1FFFFD#64 : Word).toNat + OpSize.w.bytes ∧
      Config.memSize < (0x1FFFF9#64 : Word).toNat + OpSize.x.bytes ∧ 7 < OpSize.x.bytes ∧
      0x1FFFF7 < (0x1FFFF8#64 : Word).toNat ∧ (0x1FFFF8#64 : Word).toNat + OpSize.x.bytes ≤ 0x200000 ∧
      (0x1FFFF4#64 : Word).toNat + OpSize.w.bytes ≤ (0x1FFFF8#64 : Word).toNat := by decide

/-- `StoreIsSeenByTheNextFetch` and the clauses of `Stores`: an address in PERIPH_RANGE, an address in bounds and one out
of bounds outside it. -/
theorem witness_stores :
    let s := withPeriph State.reset 0x2000
    s.mem.wf = true ∧ inPeriph s 0x2000#64 ∧ ¬ inPeriph s 0x1FFFFC#64 ∧ ¬ inPeriph s 0x1FFFFD#64 ∧
      (0x1FFFFC#64 : Word).toNat + 4 ≤ Config.memSize ∧
      Config.memSize < (0x1FFFFD#64 : Word).toNat + OpSize.w.bytes := by
  refine ⟨by decide, ?_, ?_, ?_, by decide, by decide⟩ <;> rw [← isPeriph_iff] <;> decide

/-- `ConditionalBranchResult`: each condition holds in some flags, and each but `al` fails in some. -/
theorem witness_conditions :
    ([Cond.eq, .le].all fun c => condHolds c (fl false true false false)) = true ∧
    ([Cond.ne, .ge, .gt, .al].all fun c => condHolds c (fl false false false false)) = true ∧
    ([Cond.lt, .le].all fun c => condHolds c (fl false false false true)) = true ∧
    ([Cond.eq, .lt, .le].all fun c => !condHolds c (fl true false false true)) = true ∧
    ([Cond.ne, .ge, .gt].all fun c => !condHolds c (fl true true false false)) = true := by decide

/-- `FinalDumpListsExactlyTheNonzeroWords`: a canonical memory that is not empty. -/
theorem witness_dump : (withMem State.reset 6 0x11223344#64).mem.wf = true ∧
    (withMem State.reset 6 0x11223344#64).mem.cells.length = 4 := by decide

end Sys2Proof.Tests
end

/-! ## Flags

Changing the flags before an operation commutes with it: what comes out is the same state with the changed flags, or,
where the operation writes the flags, the same state (10_state.md R25). -/

namespace Sys2Proof.Machine

open Sys2Proof.Safety

section SetFlags

variable (s : State) (f : Flags)

/-! ### Registers and the ALU operations -/

theorem State.setX_setFlags (i : RegIdx) (v : Word) : (s.setFlags f).setX i v = (s.setX i v).setFlags f := by
  unfold State.setX; split <;> rfl

theorem State.wreg_setFlags (i : RegIdx) (sz : OpSize) (v : BitVec sz.bits) :
    (s.setFlags f).wreg i sz v = (s.wreg i sz v).setFlags f :=
  s.setX_setFlags f i _

/-- `arith` overwrites the flags where it writes them, and keeps them otherwise. -/
theorem State.arith_setFlags (sz : OpSize) (rd : RegIdx) (a b : BitVec sz.bits) (sub w : Bool) :
    (s.setFlags f).arith sz rd a b sub w =
      (s.arith sz rd a b sub w).setFlags (if w then (s.arith sz rd a b sub w).flags else f) := by
  rw [State.arith_eq, State.arith_eq, s.wreg_setFlags]
  cases w <;> rfl

/-- `logic` overwrites the flags where it writes them, and keeps them otherwise. -/
theorem State.logic_setFlags (sz : OpSize) (rd : RegIdx) (r : BitVec sz.bits) (w : Bool) :
    (s.setFlags f).logic sz rd r w =
      (s.logic sz rd r w).setFlags (if w then (s.logic sz rd r w).flags else f) := by
  rw [State.logic_eq, State.logic_eq, s.wreg_setFlags]
  cases w <;> rfl

theorem State.move_setFlags (sz : OpSize) (rd : RegIdx) (v : BitVec sz.bits) :
    (s.setFlags f).move sz rd v = (s.move sz rd v).setFlags f := by
  rw [State.move_eq, State.move_eq, s.wreg_setFlags]
  rfl

/-! ### Loads and stores -/

/-- The resolver gives the same address, and its write-back leaves the flags alone. -/
theorem State.resolve_setFlags (q : AddrQuery) :
    (s.setFlags f).resolve q = (s.resolve q).map fun r => (r.1, r.2.setFlags f) := by
  unfold State.resolve
  simp only [State.setFlags_x, State.setFlags_pc, State.setX_setFlags]
  split <;> rfl

theorem State.loadXfer_setFlags (a : Word) (sz : OpSize) (rt : RegIdx) :
    (s.setFlags f).loadXfer a sz rt = (s.loadXfer a sz rt).setFlags f := by
  rcases Nat.lt_or_ge Config.memSize (a.toNat + sz.bytes) with hb | hb
  · rw [State.loadXfer_out _ rt hb, State.loadXfer_out _ rt hb]
    exact (s.diag _).wreg_setFlags f rt sz _
  · rw [State.loadXfer_in _ rt hb, State.loadXfer_in _ rt hb]
    exact s.wreg_setFlags f rt sz _

theorem State.storeAccess_setFlags (a : Word) (sz : OpSize) (v : Word) :
    (s.setFlags f).storeAccess a sz v = (s.storeAccess a sz v).setFlags f := by
  unfold State.storeAccess
  rw [State.setFlags_params]
  split
  · rfl
  · unfold State.memWrite; split <;> rfl

theorem State.load_setFlags (q : AddrQuery) (rt : RegIdx) :
    (s.setFlags f).load q rt = (s.load q rt).setFlags f := by
  unfold State.load
  rw [State.resolve_setFlags]
  cases s.resolve q with
  | none => rfl
  | some r => exact congrArg (State.report · false) (r.2.loadXfer_setFlags f r.1 q.sz rt)

theorem State.store_setFlags (q : AddrQuery) (rt : RegIdx) :
    (s.setFlags f).store q rt = (s.store q rt).setFlags f := by
  unfold State.store
  rw [State.resolve_setFlags]
  cases s.resolve q with
  | none => rfl
  | some r => exact congrArg (State.report · false) (r.2.storeAccess_setFlags f r.1 q.sz _)

end SetFlags

/-! ### Instructions -/

/-- Every instruction has its meaning in every state. -/
theorem exec_total (i : Instr) (s : State) : ∃ t, exec i s = .next t := by
  cases i <;> exact ⟨_, rfl⟩

/-- B.cond is the only reader of the flags. -/
theorem flagReader_iff (i : Instr) : flagReader i = true ↔ ∃ simm19 c, i = .bCond simm19 c := by
  cases i <;> simp [flagReader]

/-- No instruction both writes and reads the flags. -/
theorem flagReader_of_flagWriter {i : Instr} (hw : flagWriter i = true) : flagReader i = false := by
  by_contra hr
  obtain ⟨simm19, c, rfl⟩ := (flagReader_iff i).mp (Bool.eq_true_of_not_eq_false hr)
  exact Bool.false_ne_true hw

/-- The flags before an instruction other than B.cond reach nothing but the flags after it, and those only where it is
no writer of flags (10_state.md R25). -/
theorem exec_setFlags {i : Instr} {s t : State} (hr : flagReader i = false) (h : exec i s = .next t) (f : Flags) :
    exec i (s.setFlags f) = .next (t.setFlags (if flagWriter i then t.flags else f)) := by
  cases i <;> rw [exec] at h
  case addImm | addsImm | subImm | subsImm | addReg | addsReg | subReg | subsReg =>
    cases h
    exact congrArg Host.Outcome.next (s.arith_setFlags f ..)
  case andReg | bicReg | orrReg | ornReg | eorReg | eonReg | andsReg | bicsReg =>
    cases h
    exact congrArg Host.Outcome.next (s.logic_setFlags f ..)
  case movn | movz | movk | madd | msub =>
    cases h
    exact congrArg Host.Outcome.next (s.move_setFlags f ..)
  case ldrUnsigned | ldrPre | ldrPost | ldrReg | ldrLit =>
    cases h
    exact congrArg Host.Outcome.next (s.load_setFlags f ..)
  case strUnsigned | strPre | strPost | strReg =>
    cases h
    exact congrArg Host.Outcome.next (s.store_setFlags f ..)
  case b | halt =>
    cases h
    rfl
  case br rn =>
    cases h
    simp only [exec, execBr, State.setFlags_x]
    split <;> rfl
  case bCond => exact absurd hr (by simp [flagReader])

/-- An instruction that is no writer of flags keeps them. For one that does not read them either, this is
`exec_setFlags` with the flags the state has already. -/
theorem exec_keeps_flags {i : Instr} {s t : State} (hw : flagWriter i = false) (h : exec i s = .next t) :
    t.flags = s.flags := by
  cases hr : flagReader i with
  | false =>
    have hs := exec_setFlags hr h s.flags
    rw [show s.setFlags s.flags = s from rfl, h, hw] at hs
    have ht : t = t.setFlags s.flags := Host.Outcome.next.inj hs
    rw [ht, State.setFlags_flags]
  | true =>
    obtain ⟨simm19, c, rfl⟩ := (flagReader_iff i).mp hr
    cases h
    split <;> rfl

/-- Settles O22: the flags reach the outcome only as `exec_setFlags` says. -/
theorem flagsAreWrittenAndReadOnlyWhereListed : Obligations.FlagsAreWrittenAndReadOnlyWhereListed := by
  refine ⟨rfl, fun i s f => ?_⟩
  obtain ⟨t, ht⟩ := exec_total i s
  obtain ⟨u, hu⟩ := exec_total i (s.setFlags f)
  have hfree (hr : flagReader i = false) : u = t.setFlags (if flagWriter i then t.flags else f) :=
    Host.Outcome.next.inj (hu.symm.trans (exec_setFlags hr ht f))
  refine ⟨t, u, ht, hu, fun hw => exec_keeps_flags hw ht, fun hw => ?_, fun hr => ?_⟩
  · rw [hfree (flagReader_of_flagWriter hw), State.setFlags_flags, if_pos hw]
  · rw [hfree hr]; rfl

end Sys2Proof.Machine

/-! ## Memory accesses

`MemRead` and `MemWrite` by bytes: the value a read gives is the sum of the bytes it covers, and a write changes the
bytes it covers and nothing else (20_memory.md R44, R45). -/

namespace Sys2Proof.Machine

open Sys2Proof.Safety

/-- An access has at most 8 bytes. -/
theorem bytes_le_eight (sz : OpSize) : sz.bytes ≤ 8 := by
  cases sz <;> decide

/-- Byte `k` of a stored value is at the `k`-th address (20_memory.md R37). -/
theorem read_writeLE_byte {m : Memory} (hw : m.wf = true) (a n : Nat) {k : Nat} (v : Word)
    (h : a + n ≤ Config.memSize) (hk : k < n) :
    (writeLE m a n v).read (a + k) = v.extractLsb' (8 * k) 8 := by
  rw [read_writeLE hw a n _ v h, if_pos (by omega), Nat.add_sub_cancel_left, BitVec.extractLsb',
    Nat.shiftRight_eq_div_pow]

/-- A store leaves every byte outside its range as it was (20_memory.md R45). -/
theorem read_writeLE_outside {m : Memory} (hw : m.wf = true) (a n : Nat) {c : Nat} (v : Word)
    (h : a + n ≤ Config.memSize) (hc : c < a ∨ a + n ≤ c) : (writeLE m a n v).read c = m.read c := by
  rw [read_writeLE hw a n c v h, if_neg (by omega)]

/-- Settles O40: an access is short enough that the shifted bytes of `readLE` do not overflow, so they form the sum. -/
theorem memReadGivesTheLittleEndianSum : Obligations.MemReadGivesTheLittleEndianSum := by
  intro s a sz
  refine ⟨fun hin => ?_, s.memRead_out⟩
  rw [s.memRead_in hin]
  exact ⟨readLE_toNat s.mem a.toNat sz.bytes (bytes_le_eight sz), rfl⟩

/-- Settles O41: in bounds `MemWrite` is `writeLE`, whose bytes the lemmas above give. -/
theorem memWriteStoresTheLittleEndianBytes : Obligations.MemWriteStoresTheLittleEndianBytes := by
  intro s a sz v hw
  refine ⟨fun hin => ?_, s.memWrite_out v⟩
  rw [s.memWrite_in v hin]
  exact ⟨fun _ hk => read_writeLE_byte hw a.toNat sz.bytes v hin hk,
    fun _ hc => read_writeLE_outside hw a.toNat sz.bytes v hin hc, rfl, wf_writeLE hw a.toNat sz.bytes v hin⟩

end Sys2Proof.Machine

/-! ## Encoding

Decoding the word of an instruction gives the instruction back (30_encoding.md R92): one lemma for each family on how
`decode` reaches it, one for each layout on what its family makes of the layout's word. -/

namespace Sys2Proof

/-! ### Fields and side conditions -/

@[simp] theorem sizeOfBit_bitOfSize (sz : OpSize) : sizeOfBit ((bitOfSize sz).getLsbD 0) = sz := by
  cases sz <;> rfl

/-- The side condition of a wide move is the decoder's test of `w[22]`, the high bit of `hw` (30_encoding.md R62). -/
theorem wideOk_iff (sz : OpSize) (hw : BitVec 2) :
    wideOk sz hw = true ↔ ¬ (sz = .w ∧ hw.getLsbD 1 = true) := by
  cases sz with
  | w => revert hw; decide
  | x => simp [wideOk]

/-- The side condition on a shift amount is the decoder's test of `w[15]`, the high bit of `imm6`
(30_encoding.md R65, R66). -/
theorem shiftAmountOk_iff (sz : OpSize) (imm6 : BitVec 6) :
    shiftAmountOk sz imm6 = true ↔ ¬ (sz = .w ∧ imm6.getLsbD 5 = true) := by
  cases sz with
  | w => revert imm6; decide
  | x => simp [shiftAmountOk]

/-- The side condition on an arithmetic shift is the decoder's test of the shift field (30_encoding.md R65). -/
theorem arithShiftOk_iff (shift : ShiftType) : arithShiftOk shift = true ↔ bitsOfShift shift ≠ 0b11#2 := by
  cases shift <;> decide

theorem Instr.encodable_iff (haltWord : InsnWord) (i : Instr) :
    i.encodable haltWord = true ↔ i.wellFormed = true ∧ (i = .halt ∨ encode haltWord i ≠ haltWord) := by
  simp [Instr.encodable]

/-! ### HALT and the families of op0 (30_encoding.md R58, R59) -/

/-- The sentinel decodes to HALT before any family is looked at (30_encoding.md R58). -/
theorem decode_haltWord (haltWord : InsnWord) : decode haltWord haltWord = .instr .halt := by
  rw [decode, if_pos rfl]

section Families

variable {haltWord w : InsnWord}

theorem decode_of_dpImm (hne : w ≠ haltWord) (h : field w 25 4 &&& 0b1110#4 = 0b1000#4) :
    decode haltWord w = decodeDpImm w := by
  rw [decode, if_neg hne, if_pos h]

theorem decode_of_dpReg (hne : w ≠ haltWord) (h : field w 25 4 &&& 0b0111#4 = 0b0101#4) :
    decode haltWord w = decodeDpReg w := by
  have hdisj : ∀ op0 : BitVec 4, op0 &&& 0b0111#4 = 0b0101#4 → op0 &&& 0b1110#4 ≠ 0b1000#4 := by decide
  rw [decode, if_neg hne, if_neg (hdisj _ h), if_pos h]

theorem decode_of_ldst (hne : w ≠ haltWord) (h : field w 25 4 &&& 0b0101#4 = 0b0100#4) :
    decode haltWord w = decodeLdst w := by
  have hdisj : ∀ op0 : BitVec 4, op0 &&& 0b0101#4 = 0b0100#4 →
      op0 &&& 0b1110#4 ≠ 0b1000#4 ∧ op0 &&& 0b0111#4 ≠ 0b0101#4 := by decide
  obtain ⟨hImm, hReg⟩ := hdisj _ h
  rw [decode, if_neg hne, if_neg hImm, if_neg hReg, if_pos h]

theorem decode_of_branch (hne : w ≠ haltWord) (h : field w 25 4 &&& 0b1110#4 = 0b1010#4) :
    decode haltWord w = decodeBranch w := by
  have hdisj : ∀ op0 : BitVec 4, op0 &&& 0b1110#4 = 0b1010#4 →
      op0 &&& 0b1110#4 ≠ 0b1000#4 ∧ op0 &&& 0b0111#4 ≠ 0b0101#4 ∧ op0 &&& 0b0101#4 ≠ 0b0100#4 := by decide
  obtain ⟨hImm, hReg, hLdst⟩ := hdisj _ h
  rw [decode, if_neg hne, if_neg hImm, if_neg hReg, if_neg hLdst, if_pos h]

end Families

/-! ### The layouts, each through its family's decoder

Each proof first reads the fields off the layout, and then names the branch of the decoder that they take. -/

/-- 30_encoding.md R61. -/
theorem decodeDpImm_encodeArithImm (opc : BitVec 2) (sz : OpSize) (sh : Bool) (imm12 : BitVec 12) (rn rd : RegIdx) :
    decodeDpImm (encodeArithImm opc sz sh imm12 rn rd) = .instr (arithImmOfOpc opc sz sh imm12 rn rd) := by
  simp (disch := decide) only [decodeDpImm, encodeArithImm, field, bitAt, field_append_hi, field_append_lo,
    bit_append_hi, bit_append_lo, Nat.reduceSub, BitVec.extractLsb'_eq_self, sizeOfBit_bitOfSize, BitVec.getLsbD_ofBool]
  rw [if_pos (by decide)]
  rfl

/-- 30_encoding.md R62. -/
theorem decodeDpImm_encodeWide {opc : BitVec 2} {sz : OpSize} {hw : BitVec 2} (imm16 : BitVec 16) (rd : RegIdx)
    (hopc : opc ≠ 0b01#2) (hok : wideOk sz hw = true) :
    decodeDpImm (encodeWide opc sz hw imm16 rd) = .instr (wideOfOpc opc sz hw imm16 rd) := by
  simp (disch := decide) only [decodeDpImm, encodeWide, field, bitAt, field_append_hi, field_append_lo,
    bit_append_hi, bit_append_lo, Nat.reduceSub, BitVec.extractLsb'_eq_self, sizeOfBit_bitOfSize]
  rw [if_neg (by decide), if_pos (by decide), if_neg hopc, if_neg ((wideOk_iff sz hw).mp hok)]

/-- 30_encoding.md R65. -/
theorem decodeDpReg_encodeArithReg (opc : BitVec 2) {sz : OpSize} {shift : ShiftType} (rm : RegIdx) {imm6 : BitVec 6}
    (rn rd : RegIdx) (hshift : arithShiftOk shift = true) (hamount : shiftAmountOk sz imm6 = true) :
    decodeDpReg (encodeArithReg opc sz shift rm imm6 rn rd) = .instr (arithRegOfOpc opc sz shift rm imm6 rn rd) := by
  simp (disch := decide) only [decodeDpReg, encodeArithReg, field, bitAt, field_append_hi, field_append_lo,
    bit_append_hi, bit_append_lo, Nat.reduceSub, BitVec.extractLsb'_eq_self, sizeOfBit_bitOfSize]
  rw [if_pos (by decide), if_neg ((arithShiftOk_iff shift).mp hshift), if_neg ((shiftAmountOk_iff sz imm6).mp hamount),
    shiftOfBits_bitsOfShift]

/-- 30_encoding.md R66. -/
theorem decodeDpReg_encodeLogic (opc : BitVec 2) (n : BitVec 1) {sz : OpSize} (shift : ShiftType) (rm : RegIdx)
    {imm6 : BitVec 6} (rn rd : RegIdx) (hamount : shiftAmountOk sz imm6 = true) :
    decodeDpReg (encodeLogic opc n sz shift rm imm6 rn rd) =
      .instr (logicOfOpc opc (n.getLsbD 0) sz shift rm imm6 rn rd) := by
  simp (disch := decide) only [decodeDpReg, encodeLogic, field, bitAt, field_append_hi, field_append_lo,
    bit_append_hi, bit_append_lo, Nat.reduceSub, BitVec.extractLsb'_eq_self, sizeOfBit_bitOfSize]
  rw [if_neg (by simp), if_pos (by decide), if_neg ((shiftAmountOk_iff sz imm6).mp hamount), shiftOfBits_bitsOfShift]

/-- 30_encoding.md R67. -/
theorem decodeDpReg_encodeMul (x : BitVec 1) (sz : OpSize) (rm ra rn rd : RegIdx) :
    decodeDpReg (encodeMul x sz rm ra rn rd) =
      if x.getLsbD 0 then .instr (.msub sz rm ra rn rd) else .instr (.madd sz rm ra rn rd) := by
  simp (disch := decide) only [decodeDpReg, encodeMul, field, bitAt, field_append_hi, field_append_lo,
    bit_append_hi, bit_append_lo, Nat.reduceSub, BitVec.extractLsb'_eq_self, sizeOfBit_bitOfSize]
  rw [if_neg (by decide), if_neg (by decide), if_pos (by decide)]

/-- 30_encoding.md R71. -/
theorem decodeLdst_encodeUnsigned (l : BitVec 1) (sz : OpSize) (imm12 : BitVec 12) (rn rt : RegIdx) :
    decodeLdst (encodeUnsigned l sz imm12 rn rt) =
      if l.getLsbD 0 then .instr (.ldrUnsigned sz imm12 rn rt) else .instr (.strUnsigned sz imm12 rn rt) := by
  simp (disch := decide) only [decodeLdst, decodeSdt, encodeUnsigned, field, bitAt, field_append_hi, field_append_lo,
    bit_append_hi, bit_append_lo, Nat.reduceSub, BitVec.extractLsb'_eq_self, sizeOfBit_bitOfSize]
  rw [if_pos (by decide), if_neg (by decide), if_pos (by decide)]

/-- 30_encoding.md R73. -/
theorem decodeLdst_encodeIndexed (l i : BitVec 1) (sz : OpSize) (simm9 : BitVec 9) (rn rt : RegIdx) :
    decodeLdst (encodeIndexed l i sz simm9 rn rt) =
      if i.getLsbD 0 then
        if l.getLsbD 0 then .instr (.ldrPre sz simm9 rn rt) else .instr (.strPre sz simm9 rn rt)
      else
        if l.getLsbD 0 then .instr (.ldrPost sz simm9 rn rt) else .instr (.strPost sz simm9 rn rt) := by
  simp (disch := decide) only [decodeLdst, decodeSdt, encodeIndexed, field, bitAt, field_append_hi, field_append_lo,
    bit_append_hi, bit_append_lo, Nat.reduceSub, BitVec.extractLsb'_eq_self, sizeOfBit_bitOfSize]
  rw [if_pos (by decide), if_neg (by decide), if_neg (by decide), if_neg (by decide), if_neg (by decide)]

/-- 30_encoding.md R72. -/
theorem decodeLdst_encodeRegOffset (l : BitVec 1) (sz : OpSize) (rm rn rt : RegIdx) :
    decodeLdst (encodeRegOffset l sz rm rn rt) =
      if l.getLsbD 0 then .instr (.ldrReg sz rm rn rt) else .instr (.strReg sz rm rn rt) := by
  simp (disch := decide) only [decodeLdst, decodeSdt, encodeRegOffset, field, bitAt, field_append_hi, field_append_lo,
    bit_append_hi, bit_append_lo, Nat.reduceSub, BitVec.extractLsb'_eq_self, sizeOfBit_bitOfSize]
  rw [if_pos (by decide), if_neg (by decide), if_neg (by decide), if_pos (by decide), if_neg (by decide)]

/-- 30_encoding.md R75. -/
theorem decodeLdst_encodeLl (sz : OpSize) (simm19 : BitVec 19) (rt : RegIdx) :
    decodeLdst (encodeLl sz simm19 rt) = .instr (.ldrLit sz simm19 rt) := by
  simp (disch := decide) only [decodeLdst, decodeLl, encodeLl, field, bitAt, field_append_hi, field_append_lo,
    bit_append_hi, bit_append_lo, Nat.reduceSub, BitVec.extractLsb'_eq_self, sizeOfBit_bitOfSize]
  rw [if_neg (by decide), if_neg (by decide)]

/-- 30_encoding.md R77. -/
theorem decodeBranch_encodeB (simm26 : BitVec 26) : decodeBranch (encodeB simm26) = .instr (.b simm26) := by
  simp (disch := decide) only [decodeBranch, encodeB, field, field_append_hi, field_append_lo,
    Nat.reduceSub, BitVec.extractLsb'_eq_self]
  rw [if_pos (by decide), if_neg (by decide)]

/-- 30_encoding.md R77. -/
theorem decodeBranch_encodeBr (rn : RegIdx) : decodeBranch (encodeBr rn) = .instr (.br rn) := by
  have hfixed : encodeBr rn &&& 0xFFFFFC1F#32 = 0xD61F0000#32 := Laws.TableRow.layout_br rn
  rw [decodeBranch]
  simp only [hfixed]
  simp (disch := decide) only [encodeBr, field, field_append_hi, field_append_lo,
    Nat.reduceSub, BitVec.extractLsb'_eq_self]
  rw [if_neg (by decide), if_pos (by decide), if_neg (by decide)]

/-- 30_encoding.md R78, R79. -/
theorem decodeBranch_encodeBCond (simm19 : BitVec 19) (cond : Cond) :
    decodeBranch (encodeBCond simm19 cond) = .instr (.bCond simm19 cond) := by
  simp (disch := decide) only [decodeBranch, encodeBCond, field, bitAt, field_append_hi, field_append_lo,
    bit_append_hi, bit_append_lo, Nat.reduceSub, BitVec.extractLsb'_eq_self]
  rw [if_neg (by decide), if_neg (by decide), if_pos (by decide), if_neg (by decide), condOfBits_bitsOfCond]

/-! ### From a word's row of the opcode table to its family -/

/-- The word of an instruction meets the mask and the match of its own row (30_encoding.md R92). -/
theorem encode_and_tableMask (haltWord : InsnWord) (i : Instr) :
    encode haltWord i &&& i.tableMask = i.tableMatch haltWord := by
  cases i
  case addImm | addsImm | subImm | subsImm => exact Laws.TableRow.layout_arithImm ..
  case movn | movz | movk => exact Laws.TableRow.layout_wide ..
  case addReg | addsReg | subReg | subsReg => exact Laws.TableRow.layout_arithReg ..
  case andReg | bicReg | orrReg | ornReg | eorReg | eonReg | andsReg | bicsReg =>
    exact Laws.TableRow.layout_logic ..
  case madd | msub => exact Laws.TableRow.layout_mul ..
  case strUnsigned | ldrUnsigned => exact Laws.TableRow.layout_unsigned ..
  case strPre | ldrPre | strPost | ldrPost => exact Laws.TableRow.layout_indexed ..
  case strReg | ldrReg => exact Laws.TableRow.layout_regOffset ..
  case ldrLit => exact Laws.TableRow.layout_ll ..
  case b => exact Laws.TableRow.layout_b ..
  case br => exact Laws.TableRow.layout_br ..
  case bCond => exact Laws.TableRow.layout_bCond ..
  case halt => exact Laws.TableRow.halt haltWord

/-- The mask and the value that tell a family's `op0` (30_encoding.md R59); HALT and UNKNOWN ask for nothing. -/
def InstructionType.op0Pattern : InstructionType → BitVec 4 × BitVec 4
  | .dpImm => (0b1110#4, 0b1000#4)
  | .dpReg => (0b0111#4, 0b0101#4)
  | .sdt | .ll => (0b0101#4, 0b0100#4)
  | .branch => (0b1110#4, 0b1010#4)
  | .halt | .unknown => (0b0000#4, 0b0000#4)

/-- The part of the decoder that reads a family's words. -/
def InstructionType.decoder : InstructionType → InsnWord → Decoded
  | .dpImm => decodeDpImm
  | .dpReg => decodeDpReg
  | .sdt | .ll => decodeLdst
  | .branch => decodeBranch
  | .halt | .unknown => .unknown

/-- The row's mask fixes the bits of `op0` that the family's pattern asks for, and the row's match has them right. -/
theorem op0_table (haltWord : InsnWord) (i : Instr) :
    field i.tableMask 25 4 &&& i.family.op0Pattern.1 = i.family.op0Pattern.1 ∧
      field (i.tableMatch haltWord) 25 4 &&& i.family.op0Pattern.1 = i.family.op0Pattern.2 := by
  cases i <;> simp [Instr.tableMask, Instr.tableMatch, Instr.family, InstructionType.op0Pattern, field]

/-- The word of an instruction has its family's `op0`. -/
theorem op0_encode (haltWord : InsnWord) (i : Instr) :
    field (encode haltWord i) 25 4 &&& i.family.op0Pattern.1 = i.family.op0Pattern.2 := by
  obtain ⟨hmask, hmatch⟩ := op0_table haltWord i
  have hrow : field (encode haltWord i) 25 4 &&& field i.tableMask 25 4 = field (i.tableMatch haltWord) 25 4 := by
    rw [← encode_and_tableMask, field, field, field, BitVec.extractLsb'_and]
  rw [← hmask, ← BitVec.and_assoc, hrow, hmatch]

theorem Instr.eq_halt_of_family {i : Instr} (h : i.family = .halt) : i = .halt := by
  cases i
  case halt => rfl
  all_goals cases h

/-- A word that is not the HALT sentinel is read by the decoder of its instruction's family. -/
theorem decode_encode_eq_decoder {haltWord : InsnWord} {i : Instr} (hne : encode haltWord i ≠ haltWord) :
    decode haltWord (encode haltWord i) = i.family.decoder (encode haltWord i) := by
  have hop0 := op0_encode haltWord i
  cases hf : i.family <;> rw [hf] at hop0
  case dpImm => exact decode_of_dpImm hne hop0
  case dpReg => exact decode_of_dpReg hne hop0
  case sdt | ll => exact decode_of_ldst hne hop0
  case branch => exact decode_of_branch hne hop0
  case halt => exact absurd (congrArg (encode haltWord) (Instr.eq_halt_of_family hf)) hne
  case unknown => cases i <;> cases hf

/-! ### Every instruction -/

/-- A well-formed instruction whose word is not the HALT sentinel: its family's decoder takes its layout's branch. -/
theorem decode_encode_of_ne {haltWord : InsnWord} {i : Instr} (hwf : i.wellFormed = true)
    (hne : encode haltWord i ≠ haltWord) : decode haltWord (encode haltWord i) = .instr i := by
  rw [decode_encode_eq_decoder hne]
  cases i
  case addImm | addsImm | subImm | subsImm => exact decodeDpImm_encodeArithImm ..
  case movn | movz | movk => exact decodeDpImm_encodeWide _ _ (by decide) hwf
  case addReg | addsReg | subReg | subsReg =>
    obtain ⟨hshift, hamount⟩ := Bool.and_eq_true_iff.mp hwf
    exact decodeDpReg_encodeArithReg _ _ _ _ hshift hamount
  case andReg | bicReg | orrReg | ornReg | eorReg | eonReg | andsReg | bicsReg =>
    exact decodeDpReg_encodeLogic _ _ _ _ _ _ hwf
  case madd | msub => exact decodeDpReg_encodeMul ..
  case strUnsigned | ldrUnsigned => exact decodeLdst_encodeUnsigned ..
  case strPre | ldrPre | strPost | ldrPost => exact decodeLdst_encodeIndexed ..
  case strReg | ldrReg => exact decodeLdst_encodeRegOffset ..
  case ldrLit => exact decodeLdst_encodeLl ..
  case b => exact decodeBranch_encodeB _
  case br => exact decodeBranch_encodeBr _
  case bCond => exact decodeBranch_encodeBCond ..
  case halt => exact absurd rfl hne

/-- Settles O2: HALT's word is the sentinel, which decodes first; every other encodable instruction is
`decode_encode_of_ne`. -/
theorem decodeOfEncodeIsTheInstruction : Obligations.DecodeOfEncodeIsTheInstruction := by
  intro haltWord i hi
  obtain ⟨hwf, rfl | hne⟩ := (Instr.encodable_iff haltWord i).mp hi
  · exact decode_haltWord haltWord
  · exact decode_encode_of_ne hwf hne

end Sys2Proof

/-! ## Immediates

The operand forms in numbers (30_encoding.md R80 to R86). -/

namespace Sys2Proof.Machine

open Sys2Proof.Safety

/-- Sign extension in numbers, for every field width (30_encoding.md R80). -/
theorem sext_toNat {n : Nat} (hn : n ≤ 64) (v : BitVec n) : (sext v).toNat = sextMod v := by
  rw [sext, BitVec.toNat_signExtend, BitVec.toNat_setWidth_of_le hn, BitVec.msb_eq_decide, sextMod, topBit]
  split <;> rfl

/-- A word offset in numbers, modulo 2^64 (30_encoding.md R82, R83). -/
theorem wordOffset_toNat {n : Nat} (hn : n ≤ 64) (v : BitVec n) :
    (wordOffset v).toNat = sextMod v * 4 % 2 ^ 64 := by
  rw [wordOffset, BitVec.toNat_mul, sext_toNat hn]
  rfl

/-- A word offset as a signed number: a field of at most 62 bits has room for the two bits of the factor. -/
theorem wordOffset_toInt {n : Nat} (hn : n ≤ 62) (v : BitVec n) : (wordOffset v).toInt = v.toInt * 4 := by
  have hpow : (2 : Int) ^ n ≤ 2 ^ 62 := pow_le_pow_right₀ (by decide) hn
  have hlo := BitVec.le_two_mul_toInt (x := v)
  have hhi := BitVec.two_mul_toInt_lt (x := v)
  rw [wordOffset, BitVec.toInt_mul, sext, BitVec.toInt_signExtend_of_le (by omega),
    show (4#64).toInt = 4 by decide]
  exact Int.bmod_eq_of_le (by omega) (by omega)

/-- The byte range of a word offset, from the range of an `n + 1`-bit signed field. -/
theorem wordOffset_range {n : Nat} (hn : n + 1 ≤ 62) (v : BitVec (n + 1)) :
    -2 ^ (n + 2) ≤ (wordOffset v).toInt ∧ (wordOffset v).toInt ≤ 2 ^ (n + 2) - 4 := by
  have hlo := BitVec.le_toInt v
  have hhi := BitVec.toInt_lt (x := v)
  rw [wordOffset_toInt hn, pow_add]
  rw [Nat.add_sub_cancel] at hlo hhi
  omega

/-- A field moved `k` bits up, in a width that has room for it, is the field times 2^k. -/
theorem setWidth_shiftLeft_toNat {n m k : Nat} (h : n + k ≤ m) (v : BitVec n) :
    (v.setWidth m <<< k).toNat = v.toNat * 2 ^ k := by
  have hroom : v.toNat * 2 ^ k < 2 ^ m :=
    calc v.toNat * 2 ^ k < 2 ^ n * 2 ^ k := Nat.mul_lt_mul_of_pos_right v.isLt (Nat.two_pow_pos k)
      _ = 2 ^ (n + k) := (Nat.pow_add ..).symm
      _ ≤ 2 ^ m := Nat.pow_le_pow_right (by decide) h
  rw [BitVec.toNat_shiftLeft, BitVec.toNat_setWidth_of_le (by omega), Nat.shiftLeft_eq, Nat.mod_eq_of_lt hroom]

/-- The arithmetic immediate in numbers (30_encoding.md R84). -/
theorem arithImm_toNat (sz : OpSize) (sh : Bool) (imm12 : BitVec 12) :
    (arithImm sz sh imm12).toNat = imm12.toNat * 2 ^ (12 * sh.toNat) := by
  have hroom : 12 + 12 ≤ sz.bits := by cases sz <;> decide
  cases sh with
  | false => exact (BitVec.toNat_setWidth_of_le (by omega)).trans (Nat.mul_one _).symm
  | true => exact setWidth_shiftLeft_toNat hroom imm12

/-- The unsigned offset in numbers (30_encoding.md R85). -/
theorem unsignedOffset_toNat (sz : OpSize) (imm12 : BitVec 12) :
    (unsignedOffset sz imm12).toNat = imm12.toNat * sz.bytes := by
  have hsmall : imm12.toNat * sz.bytes ≤ 4095 * 8 :=
    Nat.mul_le_mul (Nat.le_of_lt_succ imm12.isLt) (bytes_le_eight sz)
  have hbytes : (BitVec.ofNat 64 sz.bytes).toNat = sz.bytes := by cases sz <;> rfl
  rw [unsignedOffset, BitVec.toNat_mul, BitVec.toNat_setWidth_of_le (by decide), hbytes, Nat.mod_eq_of_lt (by omega)]

/-- An admissible wide move has its lane inside the width (30_encoding.md R62). -/
theorem lane_le_bits {sz : OpSize} {hw : BitVec 2} (hok : wideOk sz hw = true) : 16 + 16 * hw.toNat ≤ sz.bits := by
  revert hok; revert hw; cases sz <;> decide

/-- The wide-move operand in numbers (30_encoding.md R86). -/
theorem wideImm_toNat {sz : OpSize} {hw : BitVec 2} (hok : wideOk sz hw = true) (imm16 : BitVec 16) :
    (wideImm sz hw imm16).toNat = imm16.toNat * 2 ^ (16 * hw.toNat) :=
  setWidth_shiftLeft_toNat (lane_le_bits hok) imm16

/-- Settles O35: the three field widths of `sext_toNat`. -/
theorem signedFieldsAreSignExtended : Obligations.SignedFieldsAreSignExtended :=
  ⟨sext_toNat (by decide), sext_toNat (by decide), sext_toNat (by decide)⟩

/-- Settles O36: the two field widths of `wordOffset_toNat` and `wordOffset_range`. -/
theorem wordOffsetsAreFourTimesTheField : Obligations.WordOffsetsAreFourTimesTheField :=
  ⟨fun v => ⟨wordOffset_toNat (by decide) v, wordOffset_range (by decide) v⟩,
    fun v => ⟨wordOffset_toNat (by decide) v, wordOffset_range (by decide) v⟩⟩

/-- Settles O37: the three operand forms in numbers, whose ranges are those of the 12-bit field. -/
theorem unsignedImmediatesAreScaled : Obligations.UnsignedImmediatesAreScaled := by
  refine ⟨fun sz sh imm12 => ?_, fun imm12 => ?_, fun sz hw imm16 hok => wideImm_toNat hok imm16⟩
  · have := imm12.isLt
    rw [arithImm_toNat]
    refine ⟨rfl, ?_⟩
    cases sh <;> simp <;> omega
  · have hx : (unsignedOffset .x imm12).toNat = imm12.toNat * 8 := unsignedOffset_toNat .x imm12
    have hw : (unsignedOffset .w imm12).toNat = imm12.toNat * 4 := unsignedOffset_toNat .w imm12
    have := imm12.isLt
    omega

end Sys2Proof.Machine

/-! ## The Shift Engine

The four shifts as numbers: `shiftAt` computes the formulas of 40_shift_engine.md R99 to R102 at every width and every
amount, and `shift` is `shiftAt` on the truncated value (R98). -/

namespace Sys2Proof.Machine

open Sys2Proof.Safety

/-! ### The sign of a number -/

theorem topBit_toNat {w : Nat} (v : BitVec w) : topBit w v.toNat = v.msb :=
  v.msb_eq_decide.symm

theorem signedVal_toNat {w : Nat} (v : BitVec w) : signedVal w v.toNat = v.toInt := by
  rw [signedVal, topBit_toNat, BitVec.toInt_eq_msb_cond]
  norm_cast

/-! ### Each shift at one width -/

/-- The vacated bits are 0 and the bits shifted out are lost (40_shift_engine.md R99). -/
theorem shiftLsl_toNat {w : Nat} (v : BitVec w) (amount : Nat) :
    (shiftLsl v amount).toNat = shiftMod w v.toNat amount .lsl := by
  rw [shiftLsl, shiftMod]
  split
  · rw [BitVec.toNat_shiftLeft, Nat.shiftLeft_eq]
  · exact BitVec.toNat_zero

/-- 40_shift_engine.md R100. -/
theorem shiftLsr_toNat {w : Nat} (v : BitVec w) (amount : Nat) :
    (shiftLsr v amount).toNat = shiftMod w v.toNat amount .lsr := by
  rw [shiftLsr, shiftMod]
  split
  · rw [BitVec.toNat_ushiftRight, Nat.shiftRight_eq_div_pow]
  · exact BitVec.toNat_zero

/-- Below the width the arithmetic shift is the floor division of the signed value; from the width on only the sign is
left (40_shift_engine.md R101). -/
theorem shiftAsr_toNat {w : Nat} (v : BitVec w) (amount : Nat) :
    (shiftAsr v amount).toNat = shiftMod w v.toNat amount .asr := by
  rw [shiftAsr, shiftMod, signedVal_toNat, topBit_toNat]
  split
  · rw [BitVec.sshiftRight_eq, BitVec.toNat_ofInt, Int.shiftRight_eq_div_pow]
    norm_cast
  · split
    · exact BitVec.toNat_allOnes
    · exact BitVec.toNat_zero

/-- The two parts of a rotation have no bit in common. -/
theorem ushiftRight_and_shiftLeft_eq_zero {w : Nat} (v : BitVec w) (a : Nat) :
    v >>> a &&& v <<< (w - a) = 0#w := by
  ext i hi
  rw [BitVec.getElem_and, BitVec.getElem_ushiftRight, BitVec.getElem_shiftLeft, BitVec.getElem_zero]
  by_cases hlow : i < w - a
  · simp [hlow]
  · simp [BitVec.getLsbD_of_ge v (a + i) (by omega)]

/-- The parts of a rotation are disjoint, so their union is their sum (40_shift_engine.md R102). -/
theorem shiftRor_toNat {w : Nat} (v : BitVec w) (amount : Nat) :
    (shiftRor v amount).toNat = shiftMod w v.toNat amount .ror := by
  rw [shiftRor, shiftMod]
  split
  · rfl
  · rw [← BitVec.add_eq_or_of_and_eq_zero _ _ (ushiftRight_and_shiftLeft_eq_zero v _), BitVec.toNat_add,
      BitVec.toNat_ushiftRight, BitVec.toNat_shiftLeft, Nat.shiftRight_eq_div_pow, Nat.shiftLeft_eq, Nat.add_mod_mod]

/-- 40_shift_engine.md R99 to R102 at one width. -/
theorem shiftAt_toNat {w : Nat} (v : BitVec w) (amount : Nat) (type : ShiftType) :
    (shiftAt v amount type).toNat = shiftMod w v.toNat amount type := by
  cases type with
  | lsl => exact shiftLsl_toNat v amount
  | lsr => exact shiftLsr_toNat v amount
  | asr => exact shiftAsr_toNat v amount
  | ror => exact shiftRor_toNat v amount

/-! ### The engine -/

/-- The engine computes the formulas on the truncated value, and widening the result keeps it (40_shift_engine.md R98). -/
theorem shift_toNat (value : Word) (amount : Nat) (type : ShiftType) (sz : OpSize) :
    (shift value amount type sz).toNat = shiftMod sz.bits (value.toNat % 2 ^ sz.bits) amount type := by
  have hbits : sz.bits ≤ 64 := by cases sz <;> decide
  rw [shift, BitVec.toNat_setWidth_of_le hbits, shiftAt_toNat, BitVec.toNat_setWidth]

/-- Settles O32: the ASR and ROR cases of `shift_toNat`. -/
theorem asrAndRorFollowTheRules : Obligations.AsrAndRorFollowTheRules :=
  fun value amount sz => ⟨shift_toNat value amount .asr sz, shift_toNat value amount .ror sz⟩

/-! ### The required properties (40_shift_engine.md R104) -/

/-- A rotation by 0 only truncates. -/
theorem shift_zero_ror_toNat (x : Word) (sz : OpSize) : (shift x 0 .ror sz).toNat = x.toNat % 2 ^ sz.bits := by
  rw [shift_toNat, shiftMod, Nat.zero_mod, if_pos rfl]

/-- LSL multiplies by 2^k and LSR divides by it again; what is lost are the top `k` bits. -/
theorem shift_lsl_lsr_toNat (x : Word) (sz : OpSize) {k : Nat} (hk : k < sz.bits) :
    (shift (shift x k .lsl sz) k .lsr sz).toNat = x.toNat % 2 ^ sz.bits % 2 ^ (sz.bits - k) := by
  have hpow : 2 ^ sz.bits = 2 ^ (sz.bits - k) * 2 ^ k := by rw [← Nat.pow_add, Nat.sub_add_cancel hk.le]
  generalize hv : x.toNat % 2 ^ sz.bits = v
  calc (shift (shift x k .lsl sz) k .lsr sz).toNat
      = v * 2 ^ k % 2 ^ sz.bits / 2 ^ k := by
        rw [shift_toNat, shift_toNat, hv, shiftMod, shiftMod, if_pos hk, if_pos hk, Nat.mod_mod]
    _ = v % 2 ^ (sz.bits - k) * 2 ^ k / 2 ^ k := by rw [hpow, Nat.mul_mod_mul_right]
    _ = v % 2 ^ (sz.bits - k) := Nat.mul_div_cancel _ (Nat.two_pow_pos k)

/-- ASR by one less than the width leaves the sign at bit 0 and copies it everywhere else. -/
theorem shiftAsr_of_msb {w : Nat} {v : BitVec (w + 1)} (hneg : v.msb = true) :
    shiftAsr v w = BitVec.allOnes (w + 1) := by
  rw [shiftAsr, if_pos w.lt_succ_self]
  ext i hi
  rw [BitVec.getElem_sshiftRight, BitVec.getElem_allOnes]
  split
  case isTrue hsign =>
    obtain rfl : i = 0 := by omega
    rwa [BitVec.msb_eq_getLsbD_last, BitVec.getLsbD_eq_getElem (by omega)] at hneg
  case isFalse => exact hneg

/-- Settles O34: rotation by 0, the two logical shifts in turn, and the sign's copies, one lemma each. -/
theorem shiftEngineRequiredProperties : Obligations.ShiftEngineRequiredProperties := by
  refine ⟨fun x => ⟨?_, shift_zero_ror_toNat x .w⟩, fun x sz _ => shift_lsl_lsr_toNat x sz, fun x hneg => ?_⟩
  · refine BitVec.eq_of_toNat_eq ?_
    rw [shift_zero_ror_toNat, Nat.mod_eq_of_lt x.isLt]
  · have hmsb : (x.setWidth OpSize.x.bits).msb = true := by
      rwa [BitVec.setWidth_eq, BitVec.msb_eq_getLsbD_last]
    exact congrArg (BitVec.setWidth 64) (shiftAsr_of_msb hmsb)

end Sys2Proof.Machine

/-! ## Instructions that write one register

What a register write leaves in every register, as numbers, and the one shape of every instruction whose effect is a
register write, with or without the flags (10_state.md R20, R21, R25). -/

namespace Sys2Proof.Machine

open Sys2Proof.Safety

/-- An operand is no wider than a register. -/
theorem bits_le_register (sz : OpSize) : sz.bits ≤ 64 := by
  cases sz <;> decide

/-- What every register reads after `wreg`, as a number: widening the written value keeps it (10_state.md R20, R21). -/
theorem State.x_wreg_toNat (s : State) (i r : RegIdx) (sz : OpSize) (v : BitVec sz.bits) :
    ((s.wreg i sz v).x r).toNat = if r = i ∧ r ≠ zeroReg then v.toNat else (s.x r).toNat := by
  rw [State.x_wreg]
  split
  · exact BitVec.toNat_setWidth_of_le (bits_le_register sz)
  · rfl

/-- An instruction that ends in a register write, the flags `f` and no report of the pc. -/
theorem writesRegister_of_exec {i : Instr} {s : State} {rd : RegIdx} {sz : OpSize} {v : BitVec sz.bits} {f : Flags}
    (h : exec i s = .next { s with regs := (s.wreg rd sz v).regs, flags := f, pcWritten := false }) :
    WritesRegister i s rd v.toNat f :=
  ⟨_, h, fun r => s.x_wreg_toNat rd r sz v, rfl, rfl, rfl, ⟨fun _ => rfl, rfl, rfl, rfl, rfl⟩⟩

/-- An instruction that ends in `move` keeps the flags. -/
theorem writesRegister_of_move {i : Instr} {s : State} {rd : RegIdx} {sz : OpSize} {v : BitVec sz.bits}
    (h : exec i s = .next (s.move sz rd v)) : WritesRegister i s rd v.toNat s.flags :=
  writesRegister_of_exec (h.trans (congrArg _ (s.move_eq sz rd v)))

/-! ### MOVZ and MOVN -/

/-- The complement at width W, as a number (00_scope.md R14). -/
theorem toNat_not_eq_notMod {w : Nat} (v : BitVec w) : (~~~v).toNat = notMod w v.toNat :=
  BitVec.toNat_not

/-- Settles O26: both instructions `move` the wide immediate, which fits the width, or its complement. -/
theorem moveZeroAndMoveNotResult : Obligations.MoveZeroAndMoveNotResult := by
  intro s sz hw imm16 rd hok
  have himm : imm16.toNat * 2 ^ (16 * hw.toNat) % 2 ^ sz.bits = (wideImm sz hw imm16).toNat := by
    rw [← wideImm_toNat hok, Nat.mod_eq_of_lt (wideImm sz hw imm16).isLt]
  simp only [himm, ← toNat_not_eq_notMod]
  exact ⟨writesRegister_of_move rfl, writesRegister_of_move rfl⟩

end Sys2Proof.Machine

/-! ## Multiply

MADD and MSUB are one register move of the accumulator plus or minus the product, so they keep the flags whatever the
destination (43_dp_register.md R142, R143, R144). The operators of the width are those of the rules, as numbers. -/

namespace Sys2Proof.Machine

open Sys2Proof.Safety

/-- A register read at the width is the rules' `xs`, as a number (00_scope.md R15). -/
theorem State.xs_toNat_eq_val (s : State) (r : RegIdx) (sz : OpSize) : (s.xs r sz).toNat = val s r sz :=
  s.xs_toNat r sz

/-- The sum at width W, as a number (42_dp_immediate.md R114). -/
theorem toNat_add_eq_sumMod {w : Nat} (a b : BitVec w) : (a + b).toNat = sumMod w a.toNat b.toNat :=
  BitVec.toNat_add a b

/-- The difference at width W, as a number (42_dp_immediate.md R114). -/
theorem toNat_sub_eq_diffMod {w : Nat} (a b : BitVec w) : (a - b).toNat = diffMod w a.toNat b.toNat :=
  BitVec.toNat_sub' a b

/-- The product of two registers read at the width, as a number (43_dp_register.md R142, R143). -/
theorem State.xs_mul_toNat (s : State) (rn rm : RegIdx) (sz : OpSize) :
    (s.xs rn sz * s.xs rm sz).toNat = val s rn sz * val s rm sz % 2 ^ sz.bits := by
  rw [BitVec.toNat_mul, s.xs_toNat_eq_val, s.xs_toNat_eq_val]

/-- Settles O30: both instructions `move` the accumulator plus or minus the product, and a `move` keeps the flags. -/
theorem multiplyResult : Obligations.MultiplyResult := by
  intro s sz rm ra rn rd
  simp only [← s.xs_mul_toNat, ← s.xs_toNat_eq_val ra, ← toNat_add_eq_sumMod, ← toNat_sub_eq_diffMod]
  exact ⟨writesRegister_of_move rfl, writesRegister_of_move rfl⟩

end Sys2Proof.Machine

/-! ## A stopped machine

The loop's first check ends the step with the state as it is (46_step.md R170), and a run from a state that every step
gives back stays there. -/

namespace Sys2Proof.Machine

open Sys2Proof.Safety

/-- The first check of a step ends it when the machine had stopped (46_step.md R170). -/
theorem State.prepare_of_stopped {s : State} (h : s.stop ≠ .none) : s.prepare = .done s :=
  if_pos h

/-- A run whose first step gives `t` goes on from `t`. -/
theorem run_succ_of_step {s t : State} (h : step s = .next t) (k : Nat) : run (k + 1) s = run k t := by
  rw [run, h]

/-- A run from a fixed point of `step` ends where it began. -/
theorem run_of_step_eq_self {s : State} (h : step s = .next s) (k : Nat) : run k s = .next s := by
  induction k with
  | zero => rfl
  | succ k ih => rw [run_succ_of_step h, ih]

/-- Settles O8: the first check makes a stopped state a fixed point of `step`, so any run stays there. -/
theorem stoppedMachineNeverChanges : Obligations.StoppedMachineNeverChanges := by
  intro s k hstop
  have hstep : step s = .next s := step_of_done (State.prepare_of_stopped hstop)
  exact ⟨hstep, run_of_step_eq_self hstep k⟩

end Sys2Proof.Machine

/-! ## Decoding gives the one word

The other direction of the round trip (30_encoding.md §2): a word is the concatenation of its fields, so a word whose
fixed bits are a layout's is that layout's word of the fields the decoder reads. -/

namespace Sys2Proof

/-! ### A word is its fields put together -/

/-- Two fields side by side are one field. -/
theorem field_append_field (w : InsnWord) {hi lo k : Nat} (n : Nat) (h : hi = lo + k) :
    field w hi n ++ field w lo k = field w lo (n + k) := by
  subst h
  exact BitVec.extractLsb'_append_extractLsb'_eq_extractLsb' rfl

theorem field_whole (w : InsnWord) : field w 0 32 = w :=
  BitVec.extractLsb'_eq_self

/-- A field of a field. -/
theorem field_field (w : InsnWord) {lo len a : Nat} (n : Nat) (h : a + n ≤ len) :
    (field w lo len).extractLsb' a n = field w (lo + a) n := by
  apply BitVec.eq_of_getLsbD_eq
  intro i hi
  simp [field, show a + i < len by omega, hi, Nat.add_assoc]

/-- A bit of a field. -/
theorem bitAt_field (w : InsnWord) {lo len i : Nat} (h : i < len) : (field w lo len).getLsbD i = bitAt w (lo + i) := by
  simp [field, bitAt, h]

/-- A field of one bit. -/
theorem ofBool_bitAt (w : InsnWord) (i : Nat) : BitVec.ofBool (bitAt w i) = field w i 1 := by
  rw [← Nat.add_zero i, ← bitAt_field w (Nat.zero_lt_one), Nat.add_zero]
  generalize field w i 1 = f
  revert f
  decide

theorem bitOfSize_sizeOfBit (b : Bool) : bitOfSize (sizeOfBit b) = BitVec.ofBool b := by
  cases b <;> rfl

theorem bitsOfShift_shiftOfBits (f : BitVec 2) : bitsOfShift (shiftOfBits f) = f := by
  revert f
  decide

theorem bitsOfCond_of_condOfBits {f : BitVec 4} {c : Cond} (h : condOfBits f = some c) : bitsOfCond c = f := by
  revert f
  cases c <;> decide

/-! ### Each layout from its fixed bits -/

section Layouts

variable (w : InsnWord)

/-- 30_encoding.md R61. -/
theorem encodeArithImm_fields (h : field w 23 6 = 0b100010#6) :
    encodeArithImm (field w 29 2) (sizeOfBit (bitAt w 31)) (bitAt w 22) (field w 10 12) (field w 5 5) (field w 0 5) =
      w := by
  rw [encodeArithImm, bitOfSize_sizeOfBit, ← h]
  simp (disch := decide) only [ofBool_bitAt, field_append_field]
  exact field_whole w

/-- 30_encoding.md R62. -/
theorem encodeWide_fields (h : field w 23 6 = 0b100101#6) :
    encodeWide (field w 29 2) (sizeOfBit (bitAt w 31)) (field w 21 2) (field w 5 16) (field w 0 5) = w := by
  rw [encodeWide, bitOfSize_sizeOfBit, ← h]
  simp (disch := decide) only [ofBool_bitAt, field_append_field]
  exact field_whole w

/-- 30_encoding.md R65. -/
theorem encodeArithReg_fields (h : field w 24 5 = 0b01011#5) (h21 : field w 21 1 = 0b0#1) :
    encodeArithReg (field w 29 2) (sizeOfBit (bitAt w 31)) (shiftOfBits (field w 22 2)) (field w 16 5) (field w 10 6)
      (field w 5 5) (field w 0 5) = w := by
  rw [encodeArithReg, bitOfSize_sizeOfBit, bitsOfShift_shiftOfBits, ← h, ← h21]
  simp (disch := decide) only [ofBool_bitAt, field_append_field]
  exact field_whole w

/-- 30_encoding.md R66. -/
theorem encodeLogic_fields (h : field w 24 5 = 0b01010#5) :
    encodeLogic (field w 29 2) (field w 21 1) (sizeOfBit (bitAt w 31)) (shiftOfBits (field w 22 2)) (field w 16 5)
      (field w 10 6) (field w 5 5) (field w 0 5) = w := by
  rw [encodeLogic, bitOfSize_sizeOfBit, bitsOfShift_shiftOfBits, ← h]
  simp (disch := decide) only [ofBool_bitAt, field_append_field]
  exact field_whole w

/-- 30_encoding.md R67. -/
theorem encodeMul_fields (hopc : field w 29 2 = 0b00#2) (h : field w 21 8 = 0b11011000#8) :
    encodeMul (field w 15 1) (sizeOfBit (bitAt w 31)) (field w 16 5) (field w 10 5) (field w 5 5) (field w 0 5) =
      w := by
  rw [encodeMul, bitOfSize_sizeOfBit, ← hopc, ← h]
  simp (disch := decide) only [ofBool_bitAt, field_append_field]
  exact field_whole w

/-- 30_encoding.md R71. -/
theorem encodeUnsigned_fields (h31 : field w 31 1 = 0b1#1) (h : field w 25 5 = 0b11100#5) (h24 : field w 24 1 = 0b1#1)
    (h23 : field w 23 1 = 0b0#1) :
    encodeUnsigned (field w 22 1) (sizeOfBit (bitAt w 30)) (field w 10 12) (field w 5 5) (field w 0 5) = w := by
  calc encodeUnsigned (field w 22 1) (sizeOfBit (bitAt w 30)) (field w 10 12) (field w 5 5) (field w 0 5)
      = field w 31 1 ++ field w 30 1 ++ field w 25 5 ++ field w 24 1 ++ field w 23 1 ++ field w 22 1 ++
          field w 10 12 ++ field w 5 5 ++ field w 0 5 := by
        rw [encodeUnsigned, bitOfSize_sizeOfBit, ofBool_bitAt, h31, h, h24, h23]
    _ = field w 0 32 := by simp (disch := decide) only [field_append_field]
    _ = w := field_whole w

/-- 30_encoding.md R73. -/
theorem encodeIndexed_fields (h31 : field w 31 1 = 0b1#1) (h : field w 25 5 = 0b11100#5) (h24 : field w 24 1 = 0b0#1)
    (h23 : field w 23 1 = 0b0#1) (h21 : field w 21 1 = 0b0#1) (h10 : field w 10 1 = 0b1#1) :
    encodeIndexed (field w 22 1) (field w 11 1) (sizeOfBit (bitAt w 30)) (field w 12 9) (field w 5 5) (field w 0 5) =
      w := by
  calc encodeIndexed (field w 22 1) (field w 11 1) (sizeOfBit (bitAt w 30)) (field w 12 9) (field w 5 5) (field w 0 5)
      = field w 31 1 ++ field w 30 1 ++ field w 25 5 ++ field w 24 1 ++ field w 23 1 ++ field w 22 1 ++ field w 21 1 ++
          field w 12 9 ++ field w 11 1 ++ field w 10 1 ++ field w 5 5 ++ field w 0 5 := by
        rw [encodeIndexed, bitOfSize_sizeOfBit, ofBool_bitAt, h31, h, h24, h23, h21, h10]
    _ = field w 0 32 := by simp (disch := decide) only [field_append_field]
    _ = w := field_whole w

/-- 30_encoding.md R72. -/
theorem encodeRegOffset_fields (h31 : field w 31 1 = 0b1#1) (h : field w 25 5 = 0b11100#5)
    (h24 : field w 24 1 = 0b0#1) (h23 : field w 23 1 = 0b0#1) (h21 : field w 21 1 = 0b1#1)
    (h10 : field w 10 6 = 0b011010#6) :
    encodeRegOffset (field w 22 1) (sizeOfBit (bitAt w 30)) (field w 16 5) (field w 5 5) (field w 0 5) = w := by
  calc encodeRegOffset (field w 22 1) (sizeOfBit (bitAt w 30)) (field w 16 5) (field w 5 5) (field w 0 5)
      = field w 31 1 ++ field w 30 1 ++ field w 25 5 ++ field w 24 1 ++ field w 23 1 ++ field w 22 1 ++ field w 21 1 ++
          field w 16 5 ++ field w 10 6 ++ field w 5 5 ++ field w 0 5 := by
        rw [encodeRegOffset, bitOfSize_sizeOfBit, ofBool_bitAt, h31, h, h24, h23, h21, h10]
    _ = field w 0 32 := by simp (disch := decide) only [field_append_field]
    _ = w := field_whole w

/-- 30_encoding.md R75. -/
theorem encodeLl_fields (h31 : field w 31 1 = 0b0#1) (h : field w 24 6 = 0b011000#6) :
    encodeLl (sizeOfBit (bitAt w 30)) (field w 5 19) (field w 0 5) = w := by
  rw [encodeLl, bitOfSize_sizeOfBit, ← h31, ← h]
  simp (disch := decide) only [ofBool_bitAt, field_append_field]
  exact field_whole w

/-- 30_encoding.md R77. -/
theorem encodeB_fields (h : field w 26 6 = 0b000101#6) : encodeB (field w 0 26) = w := by
  rw [encodeB, ← h, field_append_field w 6 (by decide)]
  exact field_whole w

/-- 30_encoding.md R77: the mask keeps every bit but those of `rn`. -/
theorem encodeBr_fields (h : w &&& 0xFFFFFC1F#32 = 0xD61F0000#32) : encodeBr (field w 5 5) = w := by
  have hfixed (lo len : Nat) : field w lo len &&& field 0xFFFFFC1F#32 lo len = field 0xD61F0000#32 lo len := by
    rw [← h, field, field, field, BitVec.extractLsb'_and]
  have hhi : field w 10 22 = 0b1101011000011111000000#22 := by
    rw [← BitVec.and_allOnes (x := field w 10 22)]
    exact hfixed 10 22
  have hlo : field w 0 5 = 0b00000#5 := by
    rw [← BitVec.and_allOnes (x := field w 0 5)]
    exact hfixed 0 5
  rw [encodeBr, ← hhi, ← hlo]
  simp (disch := decide) only [field_append_field]
  exact field_whole w

/-- 30_encoding.md R78, R79. -/
theorem encodeBCond_fields {c : Cond} (h : field w 24 8 = 0b01010100#8) (h4 : field w 4 1 = 0b0#1)
    (hc : condOfBits (field w 0 4) = some c) : encodeBCond (field w 5 19) c = w := by
  rw [encodeBCond, bitsOfCond_of_condOfBits hc, ← h, ← h4]
  simp (disch := decide) only [field_append_field]
  exact field_whole w

end Layouts

/-! ### The instructions a family's decoder answers -/

/-- `w` is the one word of `i`, whose side conditions hold; the sentinel is left out here. -/
def Instr.IsWordOf (i : Instr) (w : InsnWord) : Prop :=
  i.wellFormed = true ∧ ∀ haltWord, encode haltWord i = w

section Opc

variable (opc : BitVec 2) {sz : OpSize} {w : InsnWord}

/-- Every value of a 2-bit field. -/
theorem opc_cases : opc = 0b00#2 ∨ opc = 0b01#2 ∨ opc = 0b10#2 ∨ opc = 0b11#2 := by
  revert opc
  decide

theorem arithImmOfOpc_isWordOf {sh : Bool} {imm12 : BitVec 12} {rn rd : RegIdx}
    (h : encodeArithImm opc sz sh imm12 rn rd = w) : (arithImmOfOpc opc sz sh imm12 rn rd).IsWordOf w := by
  rcases opc_cases opc with rfl | rfl | rfl | rfl <;> exact ⟨rfl, fun _ => h⟩

theorem wideOfOpc_isWordOf {hw : BitVec 2} {imm16 : BitVec 16} {rd : RegIdx} (hopc : opc ≠ 0b01#2)
    (hok : ¬ (sz = .w ∧ hw.getLsbD 1 = true)) (h : encodeWide opc sz hw imm16 rd = w) :
    (wideOfOpc opc sz hw imm16 rd).IsWordOf w := by
  rw [← wideOk_iff] at hok
  rcases opc_cases opc with rfl | rfl | rfl | rfl
  · exact ⟨hok, fun _ => h⟩
  · exact absurd rfl hopc
  · exact ⟨hok, fun _ => h⟩
  · exact ⟨hok, fun _ => h⟩

theorem arithRegOfOpc_isWordOf {shift : ShiftType} {rm : RegIdx} {imm6 : BitVec 6} {rn rd : RegIdx}
    (hshift : bitsOfShift shift ≠ 0b11#2) (hamount : ¬ (sz = .w ∧ imm6.getLsbD 5 = true))
    (h : encodeArithReg opc sz shift rm imm6 rn rd = w) : (arithRegOfOpc opc sz shift rm imm6 rn rd).IsWordOf w := by
  have hok : (arithShiftOk shift && shiftAmountOk sz imm6) = true :=
    Bool.and_eq_true_iff.mpr ⟨(arithShiftOk_iff shift).mpr hshift, (shiftAmountOk_iff sz imm6).mpr hamount⟩
  rcases opc_cases opc with rfl | rfl | rfl | rfl <;> exact ⟨hok, fun _ => h⟩

theorem logicOfOpc_isWordOf {n : Bool} {shift : ShiftType} {rm : RegIdx} {imm6 : BitVec 6} {rn rd : RegIdx}
    (hamount : ¬ (sz = .w ∧ imm6.getLsbD 5 = true))
    (h : encodeLogic opc (BitVec.ofBool n) sz shift rm imm6 rn rd = w) :
    (logicOfOpc opc n sz shift rm imm6 rn rd).IsWordOf w := by
  have hok : shiftAmountOk sz imm6 = true := (shiftAmountOk_iff sz imm6).mpr hamount
  rcases opc_cases opc with rfl | rfl | rfl | rfl <;> cases n <;> exact ⟨hok, fun _ => h⟩

end Opc

/-! ### The families -/

section Families

variable {w : InsnWord} {i : Instr}

theorem field_one_of_bitAt {n : Nat} {b : Bool} (h : bitAt w n = b) : field w n 1 = BitVec.ofBool b := by
  rw [← ofBool_bitAt, h]

theorem field_one_of_not_bitAt {n : Nat} (h : ¬ bitAt w n = true) : field w n 1 = 0b0#1 :=
  field_one_of_bitAt (Bool.eq_false_of_not_eq_true h)

/-- DP_IMM: `opi` and `op0` overlap in `w[25]`, and together they are the six fixed bits (30_encoding.md R60 to R62). -/
theorem decodeDpImm_isWordOf (hop0 : field w 25 4 &&& 0b1110#4 = 0b1000#4) (h : decodeDpImm w = .instr i) :
    i.IsWordOf w := by
  have hop0' : (field w 23 6).extractLsb' 2 4 &&& 0b1110#4 = 0b1000#4 := by rwa [field_field w 4 (by decide)]
  have hopi : (field w 23 6).extractLsb' 0 3 = field w 23 3 := field_field w 3 (by decide)
  have harith : ∀ f : BitVec 6, f.extractLsb' 2 4 &&& 0b1110#4 = 0b1000#4 → f.extractLsb' 0 3 = 0b010#3 →
      f = 0b100010#6 := by decide
  have hwide : ∀ f : BitVec 6, f.extractLsb' 2 4 &&& 0b1110#4 = 0b1000#4 → f.extractLsb' 0 3 = 0b101#3 →
      f = 0b100101#6 := by decide
  rw [decodeDpImm] at h
  split_ifs at h with h1 h2 h3 h4
  · cases h
    exact arithImmOfOpc_isWordOf _ (encodeArithImm_fields w (harith _ hop0' (hopi.trans h1)))
  · cases h
    have hhw : (field w 21 2).getLsbD 1 = bitAt w 22 := bitAt_field w (by decide)
    exact wideOfOpc_isWordOf _ h3 (by rwa [hhw]) (encodeWide_fields w (hwide _ hop0' (hopi.trans h2)))

/-- DP_REG: `op0` with `m` and `w[24]`, or with `m` and `opr`, are the fixed bits (30_encoding.md R64 to R67). -/
theorem decodeDpReg_isWordOf (hop0 : field w 25 4 &&& 0b0111#4 = 0b0101#4) (h : decodeDpReg w = .instr i) :
    i.IsWordOf w := by
  have hshifted : ∀ f : BitVec 5, f.extractLsb' 1 4 &&& 0b0111#4 = 0b0101#4 → f.getLsbD 4 = false →
      f = if f.getLsbD 0 then 0b01011#5 else 0b01010#5 := by decide
  have hmul : ∀ f : BitVec 8, f.extractLsb' 4 4 &&& 0b0111#4 = 0b0101#4 → f.getLsbD 7 = true →
      f.extractLsb' 0 4 = 0b1000#4 → f = 0b11011000#8 := by decide
  have h24 (hm : bitAt w 28 = false) : field w 24 5 = if bitAt w 24 then 0b01011#5 else 0b01010#5 := by
    have := hshifted (field w 24 5) (by rwa [field_field w 4 (by decide)]) (by rwa [bitAt_field w (by decide)])
    rwa [bitAt_field w (by decide)] at this
  have himm6 : (field w 10 6).getLsbD 5 = bitAt w 15 := bitAt_field w (by decide)
  rw [decodeDpReg] at h
  split_ifs at h with harith hror hamount hlogic hamount hmulOpc h15
  · obtain ⟨hm, hb24, hb21⟩ := harith
    cases h
    exact arithRegOfOpc_isWordOf _ (by rwa [bitsOfShift_shiftOfBits]) (by rwa [himm6])
      (encodeArithReg_fields w (by rw [h24 hm, hb24]; rfl) (field_one_of_bitAt hb21))
  · obtain ⟨hm, hb24⟩ := hlogic
    cases h
    exact logicOfOpc_isWordOf _ (by rwa [himm6])
      (by rw [ofBool_bitAt, encodeLogic_fields w (by rw [h24 hm, hb24]; rfl)])
  all_goals
    obtain ⟨hm, hopr, hopc⟩ := hmulOpc
    have h21 : field w 21 8 = 0b11011000#8 := hmul _ (by rwa [field_field w 4 (by decide)])
      (by rwa [bitAt_field w (by decide)]) (by rwa [field_field w 4 (by decide)])
    cases h
    refine ⟨rfl, fun _ => ?_⟩
    have hword := encodeMul_fields w hopc h21
  · rwa [field_one_of_bitAt h15] at hword
  · rwa [field_one_of_not_bitAt h15] at hword

/-- SDT: the bits the decoder tests are the fixed bits of its layouts, and `w[22]`, `w[11]` tell the instructions of a
layout apart (30_encoding.md R70 to R73). -/
theorem decodeSdt_isWordOf (h31 : bitAt w 31 = true) (h : decodeSdt w = .instr i) : i.IsWordOf w := by
  rw [decodeSdt] at h
  split_ifs at h with hunk h24 hl h21 hreg hl h10 h11 hl hl
  all_goals
    obtain ⟨h25, h23⟩ := not_or.mp hunk
    have f31 := field_one_of_bitAt h31
    have f25 := not_not.mp h25
    have f23 := field_one_of_not_bitAt h23
    cases h
    refine ⟨rfl, fun _ => ?_⟩
  · have hword := encodeUnsigned_fields w f31 f25 (field_one_of_bitAt h24) f23
    rwa [field_one_of_bitAt hl] at hword
  · have hword := encodeUnsigned_fields w f31 f25 (field_one_of_bitAt h24) f23
    rwa [field_one_of_not_bitAt hl] at hword
  all_goals have f24 := field_one_of_not_bitAt h24
  · have hword := encodeRegOffset_fields w f31 f25 f24 f23 (field_one_of_bitAt h21) (not_not.mp hreg)
    rwa [field_one_of_bitAt hl] at hword
  · have hword := encodeRegOffset_fields w f31 f25 f24 f23 (field_one_of_bitAt h21) (not_not.mp hreg)
    rwa [field_one_of_not_bitAt hl] at hword
  all_goals
    have hword := encodeIndexed_fields w f31 f25 f24 f23 (field_one_of_not_bitAt h21)
      (field_one_of_bitAt (Bool.eq_true_of_not_eq_false h10))
  · rwa [field_one_of_bitAt hl, field_one_of_bitAt h11] at hword
  · rwa [field_one_of_not_bitAt hl, field_one_of_bitAt h11] at hword
  · rwa [field_one_of_bitAt hl, field_one_of_not_bitAt h11] at hword
  · rwa [field_one_of_not_bitAt hl, field_one_of_not_bitAt h11] at hword

/-- LL (30_encoding.md R75). -/
theorem decodeLl_isWordOf (h31 : bitAt w 31 = false) (h : decodeLl w = .instr i) : i.IsWordOf w := by
  rw [decodeLl] at h
  split_ifs at h with h24
  cases h
  exact ⟨rfl, fun _ => encodeLl_fields w (field_one_of_bitAt h31) (not_not.mp h24)⟩

/-- SDT and LL (30_encoding.md R69). -/
theorem decodeLdst_isWordOf (h : decodeLdst w = .instr i) : i.IsWordOf w := by
  rw [decodeLdst] at h
  split_ifs at h with h31
  · exact decodeSdt_isWordOf h31 h
  · exact decodeLl_isWordOf (Bool.eq_false_of_not_eq_true h31) h

/-- BRANCH: `w[31:30]` with the bits the decoder tests are the fixed bits (30_encoding.md R76 to R79). -/
theorem decodeBranch_isWordOf (h : decodeBranch w = .instr i) : i.IsWordOf w := by
  rw [decodeBranch] at h
  split_ifs at h with hkind hb hkind' hbr hkind'' hbc
  · have h26 : ∀ f : BitVec 6, f.extractLsb' 4 2 = 0b00#2 → f.extractLsb' 0 4 = 0b0101#4 →
        f = 0b000101#6 := by decide
    cases h
    exact ⟨rfl, fun _ => encodeB_fields w (h26 _ (by rwa [field_field w 2 (by decide)])
      (by rw [field_field w 4 (by decide)]; exact not_not.mp hb))⟩
  · cases h
    exact ⟨rfl, fun _ => encodeBr_fields w (not_not.mp hbr)⟩
  · obtain ⟨h24, h4⟩ := not_or.mp hbc
    cases hc : condOfBits (field w 0 4) with
    | none => rw [hc] at h; cases h
    | some c =>
      rw [hc] at h
      cases h
      exact ⟨rfl, fun _ => encodeBCond_fields w (not_not.mp h24) (field_one_of_not_bitAt h4) hc⟩

end Families

/-! ### Every word -/

/-- A word that is not the sentinel and decodes to an instruction is the word of that instruction. -/
theorem decode_isWordOf {haltWord w : InsnWord} {i : Instr} (hne : w ≠ haltWord) (h : decode haltWord w = .instr i) :
    i.IsWordOf w := by
  rw [decode, if_neg hne] at h
  split_ifs at h with himm hreg hldst hbranch
  · exact decodeDpImm_isWordOf himm h
  · exact decodeDpReg_isWordOf hreg h
  · exact decodeLdst_isWordOf h
  · exact decodeBranch_isWordOf h

/-- Settles O3: the sentinel is HALT's word, and every other word is `decode_isWordOf`. -/
theorem encodeOfDecodeIsTheWord : Obligations.EncodeOfDecodeIsTheWord := by
  intro haltWord w i h
  rw [Instr.encodable_iff]
  by_cases hw : w = haltWord
  · subst hw
    obtain rfl : .halt = i := Decoded.instr.inj ((decode_haltWord w).symm.trans h)
    exact ⟨⟨rfl, .inl rfl⟩, rfl⟩
  · obtain ⟨hwf, henc⟩ := decode_isWordOf hw h
    refine ⟨⟨hwf, .inr ?_⟩, henc haltWord⟩
    rwa [henc]

/-- Settles O4: UNKNOWN carries its word, an instruction's word decodes to it, and what decodes to an instruction is
that instruction's word. -/
theorem unknownAreExactlyTheWordsOfNoInstruction : Obligations.UnknownAreExactlyTheWordsOfNoInstruction := by
  intro haltWord w u
  constructor
  · intro h
    refine ⟨Machine.decode_unknown h, ?_⟩
    rintro i hi rfl
    exact Decoded.noConfusion (h.symm.trans (decodeOfEncodeIsTheInstruction haltWord i hi))
  · rintro ⟨rfl, hnone⟩
    rcases Machine.decode_of haltWord u with h | ⟨i, h⟩
    · exact h
    · obtain ⟨hi, henc⟩ := encodeOfDecodeIsTheWord haltWord u i h
      exact absurd henc (hnone i hi)

/-- Settles O6: what decodes to HALT is HALT's one word, the sentinel. -/
theorem haltWordIsDecodedBeforeTheFamilies : Obligations.HaltWordIsDecodedBeforeTheFamilies := by
  intro haltWord w
  constructor
  · intro h
    exact (encodeOfDecodeIsTheWord haltWord w .halt h).2.symm
  · rintro rfl
    exact decode_haltWord w

/-! ### The rows of the opcode table -/

/-- The row of an instruction in spec/opcode_table.json: its mask and its match. -/
def Instr.row (haltWord : InsnWord) (i : Instr) : InsnWord × InsnWord :=
  (i.tableMask, i.tableMatch haltWord)

/-- The rows of spec/opcode_table.json but HALT's, in the table's order. -/
def tableRows : List (InsnWord × InsnWord) :=
  [(0x7F800000#32, 0x11000000#32), (0x7F800000#32, 0x31000000#32), (0x7F800000#32, 0x51000000#32),
   (0x7F800000#32, 0x71000000#32), (0x7F800000#32, 0x12800000#32), (0x7F800000#32, 0x52800000#32),
   (0x7F800000#32, 0x72800000#32), (0x7F200000#32, 0x0B000000#32), (0x7F200000#32, 0x2B000000#32),
   (0x7F200000#32, 0x4B000000#32), (0x7F200000#32, 0x6B000000#32), (0x7F200000#32, 0x0A000000#32),
   (0x7F200000#32, 0x0A200000#32), (0x7F200000#32, 0x2A000000#32), (0x7F200000#32, 0x2A200000#32),
   (0x7F200000#32, 0x4A000000#32), (0x7F200000#32, 0x4A200000#32), (0x7F200000#32, 0x6A000000#32),
   (0x7F200000#32, 0x6A200000#32), (0x7FE08000#32, 0x1B000000#32), (0x7FE08000#32, 0x1B008000#32),
   (0xBFC00000#32, 0xB9000000#32), (0xBFC00000#32, 0xB9400000#32), (0xBFE00C00#32, 0xB8000C00#32),
   (0xBFE00C00#32, 0xB8400C00#32), (0xBFE00C00#32, 0xB8000400#32), (0xBFE00C00#32, 0xB8400400#32),
   (0xBFE0FC00#32, 0xB8206800#32), (0xBFE0FC00#32, 0xB8606800#32), (0xBF000000#32, 0x18000000#32),
   (0xFC000000#32, 0x14000000#32), (0xFFFFFC1F#32, 0xD61F0000#32), (0xFF000010#32, 0x54000000#32)]

theorem Instr.row_mem_tableRows (haltWord : InsnWord) {i : Instr} (h : i ≠ .halt) : i.row haltWord ∈ tableRows := by
  cases i
  case halt => exact absurd rfl h
  all_goals simp [Instr.row, Instr.tableMask, Instr.tableMatch, tableRows]

/-- The rows, pair by pair. -/
theorem tableRows_conflict_check :
    (tableRows.all fun p => tableRows.all fun q => p.2 &&& q.1 != q.2 &&& p.1 || p == q) = true := by
  decide

/-- Two different rows ask for different values of a bit that both masks keep. -/
theorem tableRows_conflict {p q : InsnWord × InsnWord} (hp : p ∈ tableRows) (hq : q ∈ tableRows)
    (h : p.2 &&& q.1 = q.2 &&& p.1) : p = q := by
  have hpair := List.all_eq_true.mp (List.all_eq_true.mp tableRows_conflict_check p hp) q hq
  simpa [h] using hpair

/-- Settles O5: a word in two rows has the two matches agree on the bits both masks keep, so the rows are one; only
HALT's own word is in HALT's row. -/
theorem opcodeTableRowsAreDisjoint : Obligations.OpcodeTableRowsAreDisjoint := by
  intro haltWord i j hi hne
  obtain ⟨_, hword⟩ := (Instr.encodable_iff haltWord i).mp hi
  have hsentinel : encode haltWord i ≠ haltWord := hword.resolve_left hne
  constructor
  · intro hj
    by_cases hhalt : j = .halt
    · subst hhalt
      exact absurd ((BitVec.and_allOnes (x := encode haltWord i)).symm.trans hj) hsentinel
    · have hagree : j.tableMatch haltWord &&& i.tableMask = i.tableMatch haltWord &&& j.tableMask := by
        rw [← hj, ← encode_and_tableMask haltWord i, BitVec.and_assoc, BitVec.and_assoc, BitVec.and_comm j.tableMask]
      have hrow := tableRows_conflict (Instr.row_mem_tableRows haltWord hhalt)
        (Instr.row_mem_tableRows haltWord hne) hagree
      exact Prod.mk.inj hrow
  · rintro ⟨hmask, hmatch⟩
    rw [hmask, hmatch]
    exact encode_and_tableMask haltWord i

/-! ### Sample words -/

/-- Settles O1, one word at a time, by running the decoder. -/
theorem sampleWordsDecodeToTheirInstructions : Obligations.SampleWordsDecodeToTheirInstructions := by
  refine ⟨?_, ?_, ?_, ?_, ?_, ?_, ?_, ?_, ?_, ?_, ?_, ?_, ?_, ?_, ?_, ?_, ?_, ?_⟩ <;> decide

end Sys2Proof

/-! ## Branches and HALT

Each branch as one equation between states (45_branch.md R162 to R165), and when the pc it gives is the
old one. -/

namespace Sys2Proof.Machine

open Sys2Proof.Safety

/-! ### What each one does -/

theorem exec_b (s : State) (simm26 : BitVec 26) :
    exec (.b simm26) s = .next { s with pc := s.pc + wordOffset simm26, pcWritten := true } := rfl

theorem exec_br (s : State) (rn : RegIdx) :
    exec (.br rn) s = .next { s with pc := if rn = zeroReg then s.pc else s.x rn, pcWritten := true } := by
  rw [exec, execBr]
  split <;> rfl

theorem exec_bCond_taken {s : State} {c : Cond} (simm19 : BitVec 19) (h : condMeans c s.flags) :
    exec (.bCond simm19 c) s = .next { s with pc := s.pc + wordOffset simm19, pcWritten := true } := by
  rw [exec, execBCond, if_pos ((condHolds_iff c s.flags).mpr h)]
  rfl

theorem exec_bCond_untaken {s : State} {c : Cond} (simm19 : BitVec 19) (h : ¬ condMeans c s.flags) :
    exec (.bCond simm19 c) s = .next { s with pcWritten := false } := by
  rw [exec, execBCond, if_neg (fun hc => h ((condHolds_iff c s.flags).mp hc))]
  rfl

theorem exec_halt (s : State) : exec .halt s = .next { s with pcWritten := false } := rfl

/-- Where pc goes, in the shape the claims about branches have. -/
theorem branches_of_exec {i : Instr} {s : State} {p : Word} {w : Bool}
    (h : exec i s = .next { s with pc := p, pcWritten := w }) : Branches i s p.toNat w :=
  ⟨_, h, rfl, rfl, fun _ => rfl, rfl, ⟨fun _ => rfl, rfl, rfl, rfl, rfl⟩⟩

/-- The target of a pc-relative branch, as a number (30_encoding.md R83; 45_branch.md R162). -/
theorem add_wordOffset_toNat {n : Nat} (hn : n ≤ 64) (pc : Word) (v : BitVec n) :
    (pc + wordOffset v).toNat = (pc.toNat + sextMod v * 4) % 2 ^ 64 := by
  rw [BitVec.toNat_add, wordOffset_toNat hn, Nat.add_mod_mod]

/-- Settles O49: `exec_b`, with the target as a number. -/
theorem unconditionalBranchResult : Obligations.UnconditionalBranchResult := by
  intro s simm26
  rw [← add_wordOffset_toNat (by decide)]
  exact branches_of_exec (exec_b s simm26)

/-- Settles O50: `exec_br`, whose target is the old pc exactly for index 31. -/
theorem branchRegisterResult : Obligations.BranchRegisterResult := by
  intro s rn
  rw [← apply_ite BitVec.toNat]
  exact branches_of_exec (exec_br s rn)

/-- Settles O51: the two equations of `exec` for B.cond. -/
theorem conditionalBranchResult : Obligations.ConditionalBranchResult := by
  refine ⟨fun s simm19 c => ⟨fun hc => ?_, fun hc => ?_⟩, rfl⟩
  · rw [← add_wordOffset_toNat (by decide)]
    exact branches_of_exec (exec_bCond_taken simm19 hc)
  · exact branches_of_exec (p := s.pc) (exec_bCond_untaken simm19 hc)

/-- Settles O52: HALT only reports. -/
theorem haltExecutesWithoutEffect : Obligations.HaltExecutesWithoutEffect :=
  fun s => branches_of_exec (p := s.pc) (exec_halt s)

end Sys2Proof.Machine

/-! ## What an instruction does to memory and the logs

Said once for all instructions: nothing, or one access with its outcome (20_memory.md R44, R45, R47). -/

namespace Sys2Proof.Machine

open Sys2Proof.Safety

/-- The outcome of at most one access of memory, as what `t` has that `s` has not. -/
inductive AccessEffect (s t : State) : Prop
  /-- Memory and the logs are as they were: no access, or a load in bounds. -/
  | quiet (mem : t.mem = s.mem) (events : t.periphEvents = s.periphEvents) (log : t.diagLog = s.diagLog)
  /-- A load out of bounds (R44). -/
  | oobLoad (a : Word) (sz : OpSize) (out : Config.memSize < a.toNat + sz.bytes) (mem : t.mem = s.mem)
      (events : t.periphEvents = s.periphEvents) (log : t.diagLog = s.diagLog ++ [.oobLoad a sz])
  /-- A store into the peripheral (R47). -/
  | event (e : PeriphEvent) (periph : inPeriph s e.addr) (value : e.value.toNat < 2 ^ e.size.bits)
      (mem : t.mem = s.mem) (events : t.periphEvents = s.periphEvents ++ [e]) (log : t.diagLog = s.diagLog)
  /-- A store in bounds (R45). -/
  | write (a : Word) (sz : OpSize) (v : Word) (bounds : a.toNat + sz.bytes ≤ Config.memSize)
      (mem : t.mem = writeLE s.mem a.toNat sz.bytes v) (events : t.periphEvents = s.periphEvents)
      (log : t.diagLog = s.diagLog)
  /-- A store out of bounds (R45). -/
  | oobStore (a : Word) (sz : OpSize) (plain : ¬ inPeriph s a) (out : Config.memSize < a.toNat + sz.bytes)
      (mem : t.mem = s.mem) (events : t.periphEvents = s.periphEvents)
      (log : t.diagLog = s.diagLog ++ [.oobStore a sz])

/-- What the meanings leave alone: the stop reason and the parameters. -/
structure KeepsControl (s t : State) : Prop where
  stop : t.stop = s.stop
  params : t.params = s.params

theorem State.xs_setWidth_lt (s : State) (r : RegIdx) (sz : OpSize) :
    ((s.xs r sz).setWidth 64).toNat < 2 ^ sz.bits := by
  rw [BitVec.toNat_setWidth_of_le (bits_le_register sz)]
  exact (s.xs r sz).isLt

theorem not_inPeriph {s : State} {a : Word} (h : Params.isPeriph s.params a = false) : ¬ inPeriph s a :=
  fun hin => Bool.false_ne_true (h.symm.trans ((isPeriph_iff s a).mpr hin))

theorem load_effect {s : State} {q : AddrQuery} (rt : RegIdx) (h : (s.resolve q).isSome = true) :
    AccessEffect s (s.load q rt) ∧ KeepsControl s (s.load q rt) ∧ (s.load q rt).pcWritten = false ∧
      (s.load q rt).pc = s.pc := by
  obtain ⟨⟨a, u⟩, hq⟩ := Option.isSome_iff_exists.mp h
  rcases State.load_cases rt hq with ⟨_, e⟩ | ⟨hout, e⟩ <;> rw [e]
  · exact ⟨.quiet rfl rfl rfl, ⟨rfl, rfl⟩, rfl, rfl⟩
  · exact ⟨.oobLoad a q.sz hout rfl rfl rfl, ⟨rfl, rfl⟩, rfl, rfl⟩

theorem store_effect {s : State} {q : AddrQuery} (rt : RegIdx) (h : (s.resolve q).isSome = true) :
    AccessEffect s (s.store q rt) ∧ KeepsControl s (s.store q rt) ∧ (s.store q rt).pcWritten = false ∧
      (s.store q rt).pc = s.pc := by
  obtain ⟨⟨a, u⟩, hq⟩ := Option.isSome_iff_exists.mp h
  rcases State.store_cases rt hq with ⟨hp, e⟩ | ⟨_, hin, e⟩ | ⟨hp, hout, e⟩ <;> rw [e]
  · exact ⟨.event _ ((isPeriph_iff s a).mp hp) (u.xs_setWidth_lt rt q.sz) rfl rfl rfl, ⟨rfl, rfl⟩, rfl, rfl⟩
  · exact ⟨.write a q.sz _ hin rfl rfl rfl, ⟨rfl, rfl⟩, rfl, rfl⟩
  · exact ⟨.oobStore a q.sz (not_inPeriph hp) hout rfl rfl rfl, ⟨rfl, rfl⟩, rfl, rfl⟩

/-- Every instruction accesses memory at most once and leaves the stop reason and the parameters alone; one that is no
branch leaves pc alone too, and reports so. -/
theorem exec_effect {i : Instr} {s t : State} (h : exec i s = .next t) :
    AccessEffect s t ∧ KeepsControl s t ∧ (i.family ≠ .branch → t.pcWritten = false ∧ t.pc = s.pc) := by
  rcases exec_cases h with ⟨_, sz, rd, v, f, rfl⟩ | ⟨_, q, rt, hq, rfl⟩ | ⟨_, q, rt, hq, rfl⟩ | ⟨hb, p, b, rfl⟩ |
    ⟨_, rfl⟩
  · exact ⟨.quiet rfl rfl rfl, ⟨rfl, rfl⟩, fun _ => ⟨rfl, rfl⟩⟩
  · obtain ⟨heff, hctl, hpc⟩ := load_effect rt hq
    exact ⟨heff, hctl, fun _ => hpc⟩
  · obtain ⟨heff, hctl, hpc⟩ := store_effect rt hq
    exact ⟨heff, hctl, fun _ => hpc⟩
  · exact ⟨.quiet rfl rfl rfl, ⟨rfl, rfl⟩, fun hne => absurd hb hne⟩
  · exact ⟨.quiet rfl rfl rfl, ⟨rfl, rfl⟩, fun _ => ⟨rfl, rfl⟩⟩

/-- The branches are three instructions (45_branch.md R162 to R164). -/
theorem family_eq_branch_iff (i : Instr) :
    i.family = .branch ↔ (∃ simm26, i = .b simm26) ∨ (∃ rn, i = .br rn) ∨ ∃ simm19 c, i = .bCond simm19 c := by
  cases i <;> simp [Instr.family]

theorem family_of_writesPc {i : Instr} {s : State} (h : writesPc i s) : i.family = .branch := by
  cases i
  case b | br | bCond => rfl
  all_goals exact False.elim h

/-- Execution reports that it wrote pc exactly for the listed instructions (10_state.md R26). -/
theorem pcWritten_iff_writesPc {i : Instr} {s t : State} (h : exec i s = .next t) :
    t.pcWritten = true ↔ writesPc i s := by
  by_cases hb : i.family = .branch
  · rcases (family_eq_branch_iff i).mp hb with ⟨simm26, rfl⟩ | ⟨rn, rfl⟩ | ⟨simm19, c, rfl⟩
    · cases (exec_b s simm26).symm.trans h
      exact ⟨fun _ => trivial, fun _ => rfl⟩
    · cases (exec_br s rn).symm.trans h
      exact ⟨fun _ => trivial, fun _ => rfl⟩
    · by_cases hc : condMeans c s.flags
      · cases (exec_bCond_taken simm19 hc).symm.trans h
        exact ⟨fun _ => hc, fun _ => rfl⟩
      · cases (exec_bCond_untaken simm19 hc).symm.trans h
        exact ⟨fun hf => absurd hf Bool.false_ne_true, fun hw => absurd hw hc⟩
  · obtain ⟨_, _, hpc⟩ := exec_effect h
    rw [(hpc hb).1]
    exact ⟨fun hf => absurd hf Bool.false_ne_true, fun hw => absurd (family_of_writesPc hw) hb⟩

/-- What a branch does: pc and the report. -/
theorem exec_of_branch {i : Instr} {s t : State} (hb : i.family = .branch) (h : exec i s = .next t) :
    t = { s with pc := t.pc, pcWritten := t.pcWritten } := by
  rcases exec_cases h with ⟨hf, _⟩ | ⟨hf, _⟩ | ⟨hf, _⟩ | ⟨_, _, _, rfl⟩ | ⟨rfl, _⟩
  case inr.inr.inr.inl => rfl
  case inr.inr.inr.inr => cases hb
  all_goals simp [hb] at hf

theorem exec_pc_of_not_written {i : Instr} {s t : State} (h : exec i s = .next t) (hw : t.pcWritten = false) :
    t.pc = s.pc := by
  by_cases hb : i.family = .branch
  · have hnot : ¬ writesPc i s := fun hp => by simp [(pcWritten_iff_writesPc h).mpr hp] at hw
    rcases (family_eq_branch_iff i).mp hb with ⟨simm26, rfl⟩ | ⟨rn, rfl⟩ | ⟨simm19, c, rfl⟩
    · exact absurd trivial hnot
    · exact absurd trivial hnot
    · cases (exec_bCond_untaken simm19 hnot).symm.trans h
      rfl
  · obtain ⟨_, _, hpc⟩ := exec_effect h
    exact (hpc hb).2

end Sys2Proof.Machine

/-! ## What a step does

The loop's checks, the instruction and what the loop does after it, as the cases of one proposition (46_step.md R169 to
R175). Every rule of the whole machine is read off these cases. -/

namespace Sys2Proof.Machine

open Sys2Proof.Safety

/-- Everything one step from `s` can end in. -/
inductive StepResult (s t : State) : Prop
  /-- The machine had stopped (R170). -/
  | idle (stop : s.stop ≠ .none) (eq : t = s)
  /-- R171. -/
  | pcOob (running : s.stop = .none) (out : Config.memSize < s.pc.toNat + 4)
      (eq : t = stopped s .pcOob [.pcOob s.pc])
  /-- R172. -/
  | pcMisaligned (running : s.stop = .none) (bounds : s.pc.toNat + 4 ≤ Config.memSize) (odd : s.pc.toNat % 4 ≠ 0)
      (eq : t = stopped s .pcMisaligned [.pcMisaligned s.pc])
  /-- R173. -/
  | undefined (fetches : Fetches s) (unknown : decode s.params.haltWord (wordAtPc s) = .unknown (wordAtPc s))
      (eq : t = stopped s .undefinedInsn [.undefinedInsn s.pc (wordAtPc s)])
  /-- HALT (45_branch.md R165). -/
  | halted (fetches : Fetches s) (word : wordAtPc s = s.params.haltWord)
      (eq : t = { s with stop := .halt, pcWritten := false })
  /-- A branch to its own address (R175). -/
  | stuck (fetches : Fetches s) (i : Instr) (decoded : decode s.params.haltWord (wordAtPc s) = .instr i)
      (branch : i.family = .branch) (exec : exec i s = .next { s with pcWritten := true })
      (eq : t = { s with stop := .stuckPc, pcWritten := false })
  /-- A branch elsewhere (R174). -/
  | jumped (fetches : Fetches s) (i : Instr) (decoded : decode s.params.haltWord (wordAtPc s) = .instr i)
      (branch : i.family = .branch) (p : Word) (exec : exec i s = .next { s with pc := p, pcWritten := true })
      (moved : p ≠ s.pc) (eq : t = { s with pc := p, pcWritten := false })
  /-- An instruction that did not write pc (R174). -/
  | advanced (fetches : Fetches s) (i : Instr) (decoded : decode s.params.haltWord (wordAtPc s) = .instr i) (u : State)
      (exec : exec i s = .next u) (pc : u.pc = s.pc) (eq : t = { u with pc := s.pc + 4#64, pcWritten := false })

/-! ### The checks -/

theorem prepare_of_instr {s : State} {i : Instr} (h : Fetches s)
    (hd : decode s.params.haltWord (wordAtPc s) = .instr i) : s.prepare = .run i := by
  rw [State.prepare, if_neg (not_not.mpr h.running), if_neg (by rw [(inBounds_iff _ _).mpr h.inBounds]; decide),
    if_neg (not_not.mpr h.aligned), s.fetch_eq, hd]

theorem prepare_of_unknown {s : State} {u : InsnWord} (h : Fetches s)
    (hd : decode s.params.haltWord (wordAtPc s) = .unknown u) :
    s.prepare = .done (stopped s .undefinedInsn [.undefinedInsn s.pc (wordAtPc s)]) := by
  rw [State.prepare, if_neg (not_not.mpr h.running), if_neg (by rw [(inBounds_iff _ _).mpr h.inBounds]; decide),
    if_neg (not_not.mpr h.aligned), s.fetch_eq, hd, decode_unknown hd]
  rfl

theorem prepare_pcOob {s : State} (hrun : s.stop = .none) (hout : Config.memSize < s.pc.toNat + 4) :
    s.prepare = .done (stopped s .pcOob [.pcOob s.pc]) := by
  rw [State.prepare, if_neg (not_not.mpr hrun), if_pos ((inBounds_false_iff _ _).mpr hout)]
  rfl

theorem prepare_pcMisaligned {s : State} (hrun : s.stop = .none) (hin : s.pc.toNat + 4 ≤ Config.memSize)
    (hodd : s.pc.toNat % 4 ≠ 0) : s.prepare = .done (stopped s .pcMisaligned [.pcMisaligned s.pc]) := by
  rw [State.prepare, if_neg (not_not.mpr hrun), if_neg (by rw [(inBounds_iff _ _).mpr hin]; decide), if_pos hodd]
  rfl

/-! ### The step of each kind of word -/

/-- Settles O9: the two checks that `prepare` makes first. -/
theorem pcChecksStopInTheirOrder : Obligations.PcChecksStopInTheirOrder :=
  fun _ hrun => ⟨fun hout => step_of_done (prepare_pcOob hrun hout),
    fun hin hodd => step_of_done (prepare_pcMisaligned hrun hin hodd)⟩

/-- Settles O11: the last check that `prepare` makes. -/
theorem unknownWordStopsTheRun : Obligations.UnknownWordStopsTheRun :=
  fun _ _ hf hd => step_of_done (prepare_of_unknown hf hd)

theorem step_of_instr {s t : State} {i : Instr} (h : Fetches s)
    (hd : decode s.params.haltWord (wordAtPc s) = .instr i) (he : exec i s = .next t) :
    step s = .next (t.conclude i s.pc) :=
  step_of_run (prepare_of_instr h hd) he

/-- Settles O7: `conclude` by its cases; an instruction that did not write pc left it where it was. -/
theorem stepRunsTheDecodedInstruction : Obligations.StepRunsTheDecodedInstruction := by
  intro s t i hf hd he
  rw [step_of_instr hf hd he]
  refine ⟨fun hi => ?_, fun hi hw hpc => ?_, fun hi hw hpc => ?_, fun hi hw => ?_⟩
  · rw [State.conclude, if_pos hi]
    rfl
  · rw [State.conclude, if_neg hi, if_pos hw, if_pos hpc]
    rfl
  · rw [State.conclude, if_neg hi, if_pos hw, if_neg hpc]
    rfl
  · have hpc : t.pc = s.pc := exec_pc_of_not_written he hw
    rw [State.conclude, if_neg hi, hw, ← hpc]
    rfl

/-- The step of the HALT word (45_branch.md R165). -/
theorem step_of_haltWord {s : State} (h : Fetches s) (hw : wordAtPc s = s.params.haltWord) :
    step s = .next { s with stop := .halt, pcWritten := false } :=
  (stepRunsTheDecodedInstruction s _ .halt h (by rw [hw]; exact decode_haltWord _) (exec_halt s)).1 rfl

/-- Settles O12: the step of the HALT word, where the invariant has the report cleared already. -/
theorem haltStopsTheRunAtItsOwnAddress : Obligations.HaltStopsTheRunAtItsOwnAddress := by
  intro s hinv hf hw
  rw [step_of_haltWord hf hw, stopped, List.append_nil, ← hinv.report]

/-- Every way a step can end. -/
theorem step_result {s t : State} (h : step s = .next t) : StepResult s t := by
  have ended {u : State} (hp : s.prepare = .done u) : t = u := Host.Outcome.next.inj (h.symm.trans (step_of_done hp))
  rcases s.prepare_cases with ⟨hstop, hp⟩ | ⟨hrun, hout, hp⟩ | ⟨hrun, hin, hodd, hp⟩ | ⟨hrun, hin, hal, w, hd, hp⟩ |
    ⟨hrun, hin, hal, i, hd, hp⟩
  · exact .idle hstop (ended hp)
  · exact .pcOob hrun hout (ended hp)
  · exact .pcMisaligned hrun hin hodd (ended hp)
  · rw [s.fetch_eq] at hd
    have hw : w = wordAtPc s := decode_unknown hd
    subst hw
    exact .undefined ⟨hrun, hin, hal⟩ hd (ended hp)
  · rw [s.fetch_eq] at hd
    have hf : Fetches s := ⟨hrun, hin, hal⟩
    obtain ⟨u, he⟩ := exec_total i s
    have ht : t = u.conclude i s.pc := Host.Outcome.next.inj (h.symm.trans (step_of_instr hf hd he))
    subst ht
    rcases u.conclude_cases i s.pc with ⟨rfl, e⟩ | ⟨hi, hw, hpc, e⟩ | ⟨hi, hw, hpc, e⟩ | ⟨hi, hw, e⟩
    · cases (exec_halt s).symm.trans he
      exact .halted hf ((haltWordIsDecodedBeforeTheFamilies _ _).mp hd) e
    · have hb := family_of_writesPc ((pcWritten_iff_writesPc he).mp hw)
      have hu := exec_of_branch hb he
      rw [hpc, hw] at hu
      subst hu
      exact .stuck hf i hd hb he e
    · have hb := family_of_writesPc ((pcWritten_iff_writesPc he).mp hw)
      have hu := exec_of_branch hb he
      rw [hw] at hu
      refine .jumped hf i hd hb u.pc (he.trans (congrArg _ hu)) hpc (e.trans ?_)
      rw [hu]
    · have hpc := exec_pc_of_not_written he hw
      rw [hpc] at e
      exact .advanced hf i hd u he hpc e

/-- Settles O14: the checks, and `exec`, answer in every case. -/
theorem everyStepAnswersANextState : Obligations.EveryStepAnswersANextState := by
  intro s
  refine ⟨?_, fun i => exec_total i s⟩
  cases hp : s.prepare with
  | done t => exact ⟨t, step_of_done hp⟩
  | run i =>
    obtain ⟨t, he⟩ := exec_total i s
    exact ⟨_, step_of_run hp he⟩

end Sys2Proof.Machine

/-! ## Rules of the whole machine

Each field of the state over the cases of `StepResult`, and then along a run. -/

namespace Sys2Proof.Machine

open Sys2Proof.Safety

section Step

variable {s t : State} (h : step s = .next t)
include h

theorem step_params : t.params = s.params := by
  cases step_result h
  case advanced he _ heq =>
    obtain ⟨_, hctl, _⟩ := exec_effect he
    exact heq ▸ hctl.params
  all_goals
    subst t
    rfl

/-- The report is cleared where an instruction ran, and untouched elsewhere (10_state.md R26). -/
theorem step_pcWritten (hs : s.pcWritten = false) : t.pcWritten = false := by
  cases step_result h
  case idle | pcOob | pcMisaligned | undefined =>
    subst t
    exact hs
  all_goals
    subst t
    rfl

/-- A step adds at most one event, of an address in PERIPH_RANGE (20_memory.md R47). -/
theorem step_events : t.periphEvents = s.periphEvents ∨
    ∃ e, t.periphEvents = s.periphEvents ++ [e] ∧ inPeriph s e.addr ∧ e.value.toNat < 2 ^ e.size.bits := by
  cases step_result h
  case advanced he _ heq =>
    obtain ⟨heff, _, _⟩ := exec_effect he
    subst heq
    cases heff
    case event e hp hv _ hev _ => exact .inr ⟨e, hev, hp, hv⟩
    all_goals exact .inl ‹_›
  all_goals
    subst t
    exact .inl rfl

theorem step_mem_wf (hs : s.mem.wf = true) : t.mem.wf = true := by
  cases step_result h
  case advanced he _ heq =>
    obtain ⟨heff, _, _⟩ := exec_effect he
    subst heq
    cases heff
    case write a sz v hin hmem _ _ => exact hmem ▸ wf_writeLE hs _ _ v hin
    all_goals
      rename_i hmem _ _
      exact hmem ▸ hs
  all_goals
    subst t
    exact hs

end Step

/-- Settles O16: the stops of the checks record their own diagnostic, an access records its bounds, and nothing else
records any. -/
theorem stepRecordsAtMostOneDiagnostic : Obligations.StepRecordsAtMostOneDiagnostic := by
  intro s t hrun h
  cases step_result h
  case idle hstop _ => exact absurd hrun hstop
  case pcOob hout heq =>
    subst heq
    exact .inr ⟨_, rfl, rfl, rfl, hout⟩
  case pcMisaligned hodd heq =>
    subst heq
    exact .inr ⟨_, rfl, rfl, rfl, hodd⟩
  case undefined heq =>
    subst heq
    exact .inr ⟨_, rfl, rfl, rfl, rfl⟩
  case halted | stuck | jumped =>
    subst t
    exact .inl rfl
  case advanced he _ heq =>
    obtain ⟨heff, hctl, _⟩ := exec_effect he
    have hstop := hctl.stop.trans hrun
    subst heq
    cases heff
    case oobLoad a sz hout _ _ hlog => exact .inr ⟨_, hlog, hstop, hout⟩
    case oobStore a sz hplain hout _ _ hlog => exact .inr ⟨_, hlog, hstop, hout, hplain⟩
    all_goals exact .inl ‹_›

/-- Settles O15: a step that ends running is a branch elsewhere or an advance; every other one is an update of `stop`
and the log. -/
theorem stopsArePrecise : Obligations.StopsArePrecise := by
  intro s t hrun h hstop
  cases step_result h
  case idle hs _ => exact absurd hrun hs
  case pcOob | pcMisaligned | undefined =>
    subst t
    exact ⟨fun _ => rfl, rfl, fun _ => rfl, rfl, rfl, rfl, _, rfl, Nat.le_refl 1⟩
  case halted | stuck =>
    subst t
    exact ⟨fun _ => rfl, rfl, fun _ => rfl, rfl, rfl, rfl, [], (List.append_nil _).symm, Nat.zero_le 1⟩
  case jumped =>
    subst t
    exact absurd hrun hstop
  case advanced he _ heq =>
    obtain ⟨_, hctl, _⟩ := exec_effect he
    subst heq
    exact absurd (hctl.stop.trans hrun) hstop

/-! ### The report -/

section Report

variable (s : State) (p : Bool)

theorem State.setX_report (i : RegIdx) (v : Word) : (s.report p).setX i v = (s.setX i v).report p := by
  unfold State.setX; split <;> rfl

theorem State.arith_report (sz : OpSize) (rd : RegIdx) (a b : BitVec sz.bits) (sub w : Bool) :
    (s.report p).arith sz rd a b sub w = s.arith sz rd a b sub w := by
  rw [State.arith_eq, State.arith_eq, State.wreg, s.setX_report]
  rfl

theorem State.logic_report (sz : OpSize) (rd : RegIdx) (r : BitVec sz.bits) (w : Bool) :
    (s.report p).logic sz rd r w = s.logic sz rd r w := by
  rw [State.logic_eq, State.logic_eq, State.wreg, s.setX_report]
  rfl

theorem State.move_report (sz : OpSize) (rd : RegIdx) (v : BitVec sz.bits) :
    (s.report p).move sz rd v = s.move sz rd v := by
  rw [State.move_eq, State.move_eq, State.wreg, s.setX_report]
  rfl

/-- The resolver gives the same address, and its write-back leaves the report alone. -/
theorem State.resolve_report (q : AddrQuery) :
    (s.report p).resolve q = (s.resolve q).map fun r => (r.1, r.2.report p) := by
  unfold State.resolve
  simp only [State.report_x, State.report_pc, State.setX_report]
  split <;> rfl

theorem State.loadXfer_report (a : Word) (sz : OpSize) (rt : RegIdx) :
    (s.report p).loadXfer a sz rt = (s.loadXfer a sz rt).report p := by
  rcases Nat.lt_or_ge Config.memSize (a.toNat + sz.bytes) with hb | hb
  · rw [State.loadXfer_out _ rt hb, State.loadXfer_out _ rt hb]
    exact (s.diag _).setX_report p rt _
  · rw [State.loadXfer_in _ rt hb, State.loadXfer_in _ rt hb]
    exact s.setX_report p rt _

theorem State.storeXfer_report (a : Word) (sz : OpSize) (rt : RegIdx) :
    (s.report p).storeXfer a sz rt = (s.storeXfer a sz rt).report p := by
  rw [State.storeXfer, State.storeXfer, State.xs_report, State.storeAccess, State.storeAccess, State.report_params]
  split
  · rfl
  · rw [State.memWrite, State.memWrite]
    split <;> rfl

theorem State.load_report (q : AddrQuery) (rt : RegIdx) : (s.report p).load q rt = s.load q rt := by
  rw [State.load, State.load, State.resolve_report]
  cases s.resolve q with
  | none => rfl
  | some r => exact (congrArg (State.report · false) (r.2.loadXfer_report p r.1 q.sz rt)).trans rfl

theorem State.store_report (q : AddrQuery) (rt : RegIdx) : (s.report p).store q rt = s.store q rt := by
  rw [State.store, State.store, State.resolve_report]
  cases s.resolve q with
  | none => rfl
  | some r => exact (congrArg (State.report · false) (r.2.storeXfer_report p r.1 q.sz rt)).trans rfl

/-- No meaning reads the report, and every one writes it (10_state.md R26). -/
theorem exec_report (i : Instr) : exec i (s.report p) = exec i s := by
  cases i
  case addImm | addsImm | subImm | subsImm | addReg | addsReg | subReg | subsReg =>
    exact congrArg Host.Outcome.next (s.arith_report p ..)
  case andReg | bicReg | orrReg | ornReg | eorReg | eonReg | andsReg | bicsReg =>
    exact congrArg Host.Outcome.next (s.logic_report p ..)
  case movn | movz | movk | madd | msub => exact congrArg Host.Outcome.next (s.move_report p ..)
  case ldrUnsigned | ldrPre | ldrPost | ldrReg | ldrLit => exact congrArg Host.Outcome.next (s.load_report p ..)
  case strUnsigned | strPre | strPost | strReg => exact congrArg Host.Outcome.next (s.store_report p ..)
  case b | halt => rfl
  case br rn =>
    rw [exec_br, exec_br]
    rfl
  case bCond simm19 c =>
    by_cases hc : condMeans c s.flags
    · rw [exec_bCond_taken simm19 hc, exec_bCond_taken (s := s.report p) simm19 hc]
      rfl
    · rw [exec_bCond_untaken simm19 hc, exec_bCond_untaken (s := s.report p) simm19 hc]
      rfl

end Report

/-- Settles O23: execution writes the report in every case, the same whatever it was; the loop clears it. -/
theorem onlyBranchesReportThatTheyWrotePc : Obligations.OnlyBranchesReportThatTheyWrotePc := by
  refine ⟨fun i s p => ?_, fun s t hs h => step_pcWritten h hs⟩
  obtain ⟨t, ht⟩ := exec_total i s
  exact ⟨t, ht, (exec_report s p i).trans ht, pcWritten_iff_writesPc ht⟩

/-! ### Along a run -/

/-- What holds of every step, reflexively and transitively, holds of every run. -/
theorem run_rel {R : State → State → Prop} (refl : ∀ s, R s s) (trans : ∀ {s u t}, R s u → R u t → R s t)
    (hstep : ∀ {s t}, step s = .next t → R s t) (k : Nat) {s t : State} (h : run k s = .next t) : R s t := by
  induction k generalizing s with
  | zero =>
    cases h
    exact refl _
  | succ k ih =>
    obtain ⟨⟨u, hu⟩, _⟩ := everyStepAnswersANextState s
    rw [run_succ_of_step hu] at h
    exact trans (hstep hu) (ih h)

/-- Settles O21: `step_params` along a run. -/
theorem noStepChangesTheParameters : Obligations.NoStepChangesTheParameters :=
  fun k _ _ => run_rel (R := fun s t => t.params = s.params) (fun _ => rfl) (fun h₁ h₂ => h₂.trans h₁) step_params k

/-- A step appends to the diagnostic log: nothing when stopped, at most one entry otherwise. -/
theorem step_log_grows {s t : State} (h : step s = .next t) : s.diagLog <+: t.diagLog := by
  by_cases hrun : s.stop = .none
  · rcases stepRecordsAtMostOneDiagnostic s t hrun h with hlog | ⟨d, hlog, _⟩
    · exact ⟨[], (List.append_nil _).trans hlog.symm⟩
    · exact ⟨[d], hlog.symm⟩
  · obtain ⟨hs, _⟩ := stoppedMachineNeverChanges s 0 hrun
    cases hs.symm.trans h
    exact ⟨[], List.append_nil _⟩

theorem step_events_grow {s t : State} (h : step s = .next t) : s.periphEvents <+: t.periphEvents := by
  rcases step_events h with hev | ⟨e, hev, _⟩
  · exact ⟨[], (List.append_nil _).trans hev.symm⟩
  · exact ⟨[e], hev.symm⟩

/-- Settles O17: both logs grow in each step, and growing is transitive. -/
theorem logsOnlyGrowAlongARun : Obligations.LogsOnlyGrowAlongARun :=
  fun k _ _ => run_rel (R := fun s t => s.diagLog <+: t.diagLog ∧ s.periphEvents <+: t.periphEvents)
    (fun _ => ⟨⟨[], List.append_nil _⟩, ⟨[], List.append_nil _⟩⟩)
    (fun h₁ h₂ => ⟨h₁.1.trans h₂.1, h₁.2.trans h₂.2⟩) (fun h => ⟨step_log_grows h, step_events_grow h⟩) k

/-- From a state without a peripheral: there is none afterwards, and no event is added. -/
def StaysWithoutPeriph (s t : State) : Prop :=
  s.params.periphRange = [] → t.params.periphRange = [] ∧ t.periphEvents = s.periphEvents

theorem not_inPeriph_of_empty {s : State} (h : s.params.periphRange = []) (a : Word) : ¬ inPeriph s a := by
  simp [inPeriph, h]

theorem StaysWithoutPeriph.trans {s u t : State} (h₁ : StaysWithoutPeriph s u) (h₂ : StaysWithoutPeriph u t) :
    StaysWithoutPeriph s t := by
  intro hs
  obtain ⟨hu, hev₁⟩ := h₁ hs
  obtain ⟨ht, hev₂⟩ := h₂ hu
  exact ⟨ht, hev₂.trans hev₁⟩

theorem step_staysWithoutPeriph {s t : State} (h : step s = .next t) : StaysWithoutPeriph s t := by
  intro hs
  refine ⟨(congrArg Params.periphRange (step_params h)).trans hs, ?_⟩
  rcases step_events h with hev | ⟨e, _, hp, _⟩
  · exact hev
  · exact absurd hp (not_inPeriph_of_empty hs e.addr)

/-- Settles O44: no address is in an empty range, so a store is `MemWrite`, and no step of a run adds an event. -/
theorem emptyPeriphRangeIsPlainMemory : Obligations.EmptyPeriphRangeIsPlainMemory := by
  intro s hempty
  constructor
  · intro a sz v
    rw [State.storeAccess, if_neg (fun hp => not_inPeriph_of_empty hempty a ((isPeriph_iff s a).mp hp))]
  · intro k t h
    obtain ⟨_, hev⟩ := run_rel (R := StaysWithoutPeriph) (fun _ hs => ⟨hs, rfl⟩) StaysWithoutPeriph.trans
      step_staysWithoutPeriph k h hempty
    exact hev

/-! ### The invariant -/

/-- The word at pc is a matter of memory and pc alone. -/
theorem wordAtPc_congr {s t : State} (hmem : t.mem = s.mem) (hpc : t.pc = s.pc) : wordAtPc t = wordAtPc s := by
  rw [wordAtPc, wordAtPc, bytesVal, bytesVal, hmem, hpc]

/-- A step leaves a stop that its state explains: the checks and the loop set `stop` with what they saw, and every other
step ends running. -/
theorem step_stopExplained {s t : State} (h : step s = .next t) (hs : StopExplained s) : StopExplained t := by
  cases step_result h
  case idle heq => exact heq ▸ hs
  case pcOob hout heq =>
    subst heq
    exact ⟨hout, List.getLast?_concat⟩
  case pcMisaligned hin hodd heq =>
    subst heq
    exact ⟨hin, hodd, List.getLast?_concat⟩
  case undefined hf hd heq =>
    subst heq
    exact ⟨hf.inBounds, hf.aligned, hd, List.getLast?_concat⟩
  case halted hf hw heq =>
    subst heq
    exact ⟨hf.inBounds, hf.aligned, hw⟩
  case stuck hf i hd hb _ heq =>
    subst heq
    exact ⟨hf.inBounds, hf.aligned, i, hd, hb⟩
  case jumped hf _ _ _ _ _ _ heq =>
    subst heq
    rw [StopExplained]
    simp only [hf.running]
  case advanced hf _ _ _ he _ heq =>
    obtain ⟨_, hctl, _⟩ := exec_effect he
    subst heq
    rw [StopExplained]
    simp only [hctl.stop, hf.running]

/-- No step records the resolver's invalid-mode case (41_addressing.md R113). -/
theorem step_log_resolver {s t : State} (h : step s = .next t) (hs : ∀ pc w, .resolverInconsistent pc w ∉ s.diagLog)
    (pc : Word) (w : InsnWord) : .resolverInconsistent pc w ∉ t.diagLog := by
  by_cases hrun : s.stop = .none
  · rcases stepRecordsAtMostOneDiagnostic s t hrun h with hlog | ⟨d, hlog, hd⟩
    · rw [hlog]
      exact hs pc w
    · rw [hlog, List.mem_append, List.mem_singleton]
      rintro (hmem | rfl)
      · exact hs pc w hmem
      · exact hd
  · obtain ⟨hidle, _⟩ := stoppedMachineNeverChanges s 0 hrun
    cases hidle.symm.trans h
    exact hs pc w

theorem inPeriph_congr {s t : State} (h : t.params = s.params) (a : Word) : inPeriph t a ↔ inPeriph s a := by
  rw [inPeriph, inPeriph, h]

/-- Settles O18: one lemma for each clause of the invariant. -/
theorem invariantKeptByEveryStep : Obligations.InvariantKeptByEveryStep := by
  intro s t hinv h
  refine ⟨step_mem_wf h hinv.mem, step_pcWritten h hinv.report, ?_, step_log_resolver h hinv.resolver,
    step_stopExplained h hinv.stop⟩
  simp only [inPeriph_congr (step_params h)]
  rcases step_events h with hev | ⟨e, hev, he⟩
  · rw [hev]
    exact hinv.events
  · rw [hev]
    intro e' hmem
    rcases List.mem_append.mp hmem with hold | hnew
    · exact hinv.events e' hold
    · exact List.mem_singleton.mp hnew ▸ he

/-- Settles O19: at reset memory and the logs are empty and nothing has stopped. -/
theorem invariantHoldsAtReset : Obligations.InvariantHoldsAtReset :=
  ⟨State.reset_mem_wf, rfl, fun _ he => absurd he List.not_mem_nil, fun _ _ => List.not_mem_nil, trivial⟩

/-- The part of an image that is loaded fits in memory (70_reset_and_hazards.md R196). -/
theorem length_take_image (image : List Byte) : 0 + (image.take Config.memSize).length ≤ Config.memSize := by
  rw [Nat.zero_add]
  exact List.length_take_le _ _

/-- Settles O20: the image is stored inside memory, and the one diagnostic of a boot is another one. -/
theorem invariantHoldsAfterBoot : Obligations.InvariantHoldsAfterBoot := by
  intro p image
  refine ⟨wf_storeBytes State.reset_mem_wf 0 _ (length_take_image image), rfl,
    fun _ he => absurd he List.not_mem_nil, fun pc w => ?_, trivial⟩
  rw [State.boot, State.loadImage]
  split <;> simp

/-! ### Branches to themselves and misaligned targets -/

/-- A branch whose target is its own address (46_step.md R175, decision D12). -/
def SelfBranch (i : Instr) (s : State) : Prop :=
  i = .b 0#26 ∨ (∃ c, i = .bCond 0#19 c ∧ condMeans c s.flags) ∨ i = .br zeroReg ∨ ∃ rn, i = .br rn ∧ s.x rn = s.pc

/-- A field of at most 62 bits that gives offset 0 is 0. -/
theorem wordOffset_eq_zero_iff {n : Nat} (hn : n ≤ 62) (v : BitVec n) : wordOffset v = 0#64 ↔ v = 0#n := by
  constructor
  · intro h
    have hint := wordOffset_toInt hn v
    rw [h, BitVec.toInt_zero] at hint
    refine BitVec.eq_of_toInt_eq ?_
    rw [BitVec.toInt_zero]
    omega
  · rintro rfl
    refine BitVec.eq_of_toInt_eq ?_
    rw [wordOffset_toInt hn, BitVec.toInt_zero, BitVec.toInt_zero, Int.zero_mul]

theorem add_wordOffset_eq_self_iff {n : Nat} (hn : n ≤ 62) (pc : Word) (v : BitVec n) :
    pc + wordOffset v = pc ↔ v = 0#n := by
  exact add_eq_left.trans (wordOffset_eq_zero_iff hn v)

/-- An instruction leaves pc where it was and reports that it wrote it exactly when it is a self-branch. -/
theorem exec_stays_iff_selfBranch (i : Instr) (s : State) :
    exec i s = .next { s with pcWritten := true } ↔ SelfBranch i s := by
  constructor
  · intro h
    have hb := family_of_writesPc ((pcWritten_iff_writesPc h).mp rfl)
    rcases (family_eq_branch_iff i).mp hb with ⟨simm26, rfl⟩ | ⟨rn, rfl⟩ | ⟨simm19, c, rfl⟩
    · have hpc := congrArg State.pc (Host.Outcome.next.inj ((exec_b s simm26).symm.trans h))
      exact .inl (congrArg Instr.b ((add_wordOffset_eq_self_iff (by decide) s.pc simm26).mp hpc))
    · have hpc : (if rn = zeroReg then s.pc else s.x rn) = s.pc :=
        congrArg State.pc (Host.Outcome.next.inj ((exec_br s rn).symm.trans h))
      by_cases hrn : rn = zeroReg
      · exact .inr (.inr (.inl (congrArg Instr.br hrn)))
      · rw [if_neg hrn] at hpc
        exact .inr (.inr (.inr ⟨rn, rfl, hpc⟩))
    · have hc : condMeans c s.flags := (pcWritten_iff_writesPc h).mp rfl
      have hpc := congrArg State.pc (Host.Outcome.next.inj ((exec_bCond_taken simm19 hc).symm.trans h))
      have hzero := (add_wordOffset_eq_self_iff (by decide) s.pc simm19).mp hpc
      exact .inr (.inl ⟨c, congrArg (Instr.bCond · c) hzero, hc⟩)
  · have hstay {n : Nat} (hn : n ≤ 62) : s.pc + wordOffset 0#n = s.pc :=
      (add_wordOffset_eq_self_iff hn s.pc 0#n).mpr rfl
    rintro (rfl | ⟨c, rfl, hc⟩ | rfl | ⟨rn, rfl, hrn⟩)
    · rw [exec_b, hstay (by decide)]
    · rw [exec_bCond_taken _ hc, hstay (by decide)]
    · exact exec_br s zeroReg
    · rw [exec_br, hrn, ite_self]

/-- Settles O13: the loop stops with STUCK_PC exactly after an instruction that stays, and those are the
self-branches. -/
theorem exactlySelfBranchesStick : Obligations.ExactlySelfBranchesStick := by
  intro s i hinv hf hd
  constructor
  · intro hself
    have hi : i ≠ .halt := by
      rintro rfl
      simp at hself
    obtain ⟨_, hstuck, _⟩ :=
      stepRunsTheDecodedInstruction s _ i hf hd ((exec_stays_iff_selfBranch i s).mpr hself)
    rw [hstuck hi rfl rfl, stopped, List.append_nil, ← hinv.report]
  · intro t h hstop
    have hrun := hf.running
    cases step_result h
    case stuck j hd' _ he _ =>
      cases Decoded.instr.inj (hd.symm.trans hd')
      exact (exec_stays_iff_selfBranch i s).mp he
    case advanced he _ heq =>
      obtain ⟨_, hctl, _⟩ := exec_effect he
      subst heq
      cases hstop.symm.trans (hctl.stop.trans hrun)
    case idle hs _ => exact absurd hrun hs
    case jumped heq =>
      subst heq
      cases hstop.symm.trans hrun
    all_goals
      subst t
      cases hstop

/-- A word offset is a multiple of 4, which 2^64 keeps (20_memory.md §3). -/
theorem wordOffset_mod_four {n : Nat} (hn : n ≤ 64) (v : BitVec n) : (wordOffset v).toNat % 4 = 0 := by
  rw [wordOffset_toNat hn]
  omega

theorem add_wordOffset_mod_four {n : Nat} (hn : n ≤ 64) {pc : Word} (hpc : pc.toNat % 4 = 0) (v : BitVec n) :
    (pc + wordOffset v).toNat % 4 = 0 := by
  have := wordOffset_mod_four hn v
  rw [BitVec.toNat_add]
  omega

/-- From an aligned pc only BR jumps to a misaligned one (20_memory.md §3, decision D35). -/
theorem br_of_misaligned_jump {i : Instr} {s : State} {p : Word} (hal : s.pc.toNat % 4 = 0) (hb : i.family = .branch)
    (h : exec i s = .next { s with pc := p, pcWritten := true }) (hp : p.toNat % 4 ≠ 0) :
    ∃ rn, i = .br rn ∧ rn ≠ zeroReg ∧ p = s.x rn := by
  rcases (family_eq_branch_iff i).mp hb with ⟨simm26, rfl⟩ | ⟨rn, rfl⟩ | ⟨simm19, c, rfl⟩
  · cases (exec_b s simm26).symm.trans h
    exact absurd (add_wordOffset_mod_four (by decide) hal simm26) hp
  · cases (exec_br s rn).symm.trans h
    by_cases hrn : rn = zeroReg
    · rw [if_pos hrn] at hp
      exact absurd hal hp
    · exact ⟨rn, rfl, hrn, if_neg hrn⟩
  · have hc : condMeans c s.flags := (pcWritten_iff_writesPc h).mp rfl
    cases (exec_bCond_taken simm19 hc).symm.trans h
    exact absurd (add_wordOffset_mod_four (by decide) hal simm19) hp

/-- Settles O10: the alignment check, the offsets, and for the last clause the cases of a step, of which only the branch
elsewhere can misalign pc. -/
theorem misalignedPcStopsAndOnlyBrMakesOne : Obligations.MisalignedPcStopsAndOnlyBrMakesOne := by
  refine ⟨fun s hrun hin hodd => ?_, wordOffset_mod_four (by decide), wordOffset_mod_four (by decide), ?_⟩
  · exact ⟨_, (pcChecksStopInTheirOrder s hrun).2 hin hodd, rfl, rfl, rfl, rfl, rfl, rfl⟩
  · intro s t hf h hodd
    have hal := hf.aligned
    cases step_result h
    case jumped i hd hb p he _ heq =>
      subst heq
      obtain ⟨rn, rfl, hrn, hp⟩ := br_of_misaligned_jump hal hb he hodd
      exact ⟨rn, hd, hrn, hp⟩
    case advanced heq =>
      subst heq
      rw [BitVec.toNat_add] at hodd
      simp only [BitVec.toNat_ofNat] at hodd
      omega
    all_goals
      subst t
      exact absurd hal hodd

end Sys2Proof.Machine

/-! ## The flags of a result

The adder's and the logical flags by the rules' formulas over numbers (42_dp_immediate.md R114; 43_dp_register.md R132),
and what they mean. -/

namespace Sys2Proof.Machine

open Sys2Proof.Safety

section Flags

variable {w : Nat} (a b : BitVec w)

/-- The zero test of a word is the zero test of its number. -/
theorem beq_zero_eq_decide (r : BitVec w) : (r == 0#w) = decide (r.toNat = 0) := by
  rw [Bool.eq_iff_iff, beq_iff_eq, decide_eq_true_iff, ← BitVec.toNat_inj, BitVec.toNat_zero]

theorem addFlags_eq_sumFlags : addFlags a b (a + b) = sumFlags w a.toNat b.toNat := by
  rw [addFlags, sumFlags, ← toNat_add_eq_sumMod, topBit_toNat, topBit_toNat, topBit_toNat, beq_zero_eq_decide,
    BitVec.ult_eq_decide]

theorem subFlags_eq_diffFlags : subFlags a b (a - b) = diffFlags w a.toNat b.toNat := by
  rw [subFlags, diffFlags, ← toNat_sub_eq_diffMod, topBit_toNat, topBit_toNat, topBit_toNat, beq_zero_eq_decide,
    BitVec.ule_eq_decide]

theorem logicFlags_eq_resultFlags (r : BitVec w) : logicFlags r = resultFlags w r.toNat := by
  rw [logicFlags, resultFlags, topBit_toNat, beq_zero_eq_decide]

/-! ### What the adder's flags mean -/

/-- N is the sign of the result. -/
theorem msb_iff_toInt_neg (r : BitVec w) : r.msb = true ↔ r.toInt < 0 := by
  rw [BitVec.msb_eq_toInt, decide_eq_true_iff]

/-- C of a sum is the carry out: the sum of the numbers does not fit the width. -/
theorem addFlags_c_iff : (addFlags a b (a + b)).c = true ↔ 2 ^ w ≤ a.toNat + b.toNat := by
  have ha := a.isLt
  have hb := b.isLt
  show (a + b).ult a = true ↔ _
  rw [BitVec.ult_eq_decide, decide_eq_true_iff, BitVec.toNat_add]
  rcases Nat.lt_or_ge (a.toNat + b.toNat) (2 ^ w) with h | h
  · rw [Nat.mod_eq_of_lt h]
    omega
  · rw [Nat.mod_eq_sub_mod h, Nat.mod_eq_of_lt (by omega)]
    omega

/-- C of a difference is the carry out of a + NOT b + 1. -/
theorem subFlags_c_iff : (subFlags a b (a - b)).c = true ↔ 2 ^ w ≤ a.toNat + (~~~b).toNat + 1 := by
  have hb := b.isLt
  show b.ule a = true ↔ _
  rw [BitVec.ule_eq_decide, decide_eq_true_iff, BitVec.toNat_not]
  omega

/-- V of a sum is signed overflow. -/
theorem addFlags_v_iff : (addFlags a b (a + b)).v = true ↔
    a.toInt + b.toInt < -2 ^ (w - 1) ∨ 2 ^ (w - 1) ≤ a.toInt + b.toInt := by
  have hv : (addFlags a b (a + b)).v = a.saddOverflow b := (BitVec.saddOverflow_eq a b).symm
  rw [hv, BitVec.saddOverflow, Bool.or_eq_true, decide_eq_true_iff, decide_eq_true_iff, or_comm]

/-- V of a difference is signed overflow. -/
theorem subFlags_v_iff : (subFlags a b (a - b)).v = true ↔
    a.toInt - b.toInt < -2 ^ (w - 1) ∨ 2 ^ (w - 1) ≤ a.toInt - b.toInt := by
  have hv : (subFlags a b (a - b)).v = a.ssubOverflow b := by
    rw [BitVec.ssubOverflow_eq, subFlags]
    cases a.msb <;> cases b.msb <;> cases (a - b).msb <;> rfl
  rw [hv, BitVec.ssubOverflow, Bool.or_eq_true, decide_eq_true_iff, decide_eq_true_iff, or_comm]

end Flags

/-- Settles O31: one lemma for C and V of each operation; N and Z are tests of the result. -/
theorem adderFlagsAreCarryAndSignedOverflow : Obligations.AdderFlagsAreCarryAndSignedOverflow := by
  intro sz a b
  refine ⟨addFlags_c_iff a b, addFlags_v_iff a b, msb_iff_toInt_neg (a + b), ?_, subFlags_c_iff a b,
    subFlags_v_iff a b, msb_iff_toInt_neg (a - b), ?_⟩
  · show (a + b == 0#sz.bits) = true ↔ _
    rw [beq_zero_eq_decide, decide_eq_true_iff]
  · show (a - b == 0#sz.bits) = true ↔ _
    rw [beq_iff_eq]
    exact sub_eq_zero

/-- Settles O33: the LSL and LSR cases of `shift_toNat`. -/
theorem logicalShiftsFollowTheRules : Obligations.LogicalShiftsFollowTheRules :=
  fun value amount sz => ⟨shift_toNat value amount .lsl sz, shift_toNat value amount .lsr sz⟩

end Sys2Proof.Machine

/-! ## Addition, subtraction and logic

Every one of these instructions ends in `arith` or `logic`, so its result and its flags are those of the operation on
the operands' numbers (42_dp_immediate.md §2; 43_dp_register.md §2, §3). -/

namespace Sys2Proof.Machine

open Sys2Proof.Safety

section Results

variable {i : Instr} {s : State} {sz : OpSize} {rd : RegIdx} {a b : BitVec sz.bits} (w : Bool)

theorem writesRegister_of_add (h : exec i s = .next (s.arith sz rd a b false w)) :
    WritesRegister i s rd (sumMod sz.bits a.toNat b.toNat)
      (if w then sumFlags sz.bits a.toNat b.toNat else s.flags) := by
  rw [← toNat_add_eq_sumMod, ← addFlags_eq_sumFlags]
  exact writesRegister_of_exec (h.trans (congrArg _ (s.arith_eq sz rd a b false w)))

theorem writesRegister_of_sub (h : exec i s = .next (s.arith sz rd a b true w)) :
    WritesRegister i s rd (diffMod sz.bits a.toNat b.toNat)
      (if w then diffFlags sz.bits a.toNat b.toNat else s.flags) := by
  rw [← toNat_sub_eq_diffMod, ← subFlags_eq_diffFlags]
  exact writesRegister_of_exec (h.trans (congrArg _ (s.arith_eq sz rd a b true w)))

theorem writesRegister_of_logic (h : exec i s = .next (s.logic sz rd a w)) :
    WritesRegister i s rd a.toNat (if w then resultFlags sz.bits a.toNat else s.flags) := by
  rw [← logicFlags_eq_resultFlags]
  exact writesRegister_of_exec (h.trans (congrArg _ (s.logic_eq sz rd a w)))

end Results

/-- Settles O25: each instruction ends in `arith` on the register's and the immediate's number. -/
theorem addSubImmediateResult : Obligations.AddSubImmediateResult := by
  intro s sz sh imm12 rn rd
  have himm : imm12.toNat * (if sh then 4096 else 1) = (arithImm sz sh imm12).toNat := by
    rw [arithImm_toNat]
    cases sh <;> rfl
  simp only [himm, ← s.xs_toNat_eq_val]
  exact ⟨writesRegister_of_add false rfl, writesRegister_of_add true rfl, writesRegister_of_sub false rfl,
    writesRegister_of_sub true rfl⟩

/-- The shifted second operand as a number (43_dp_register.md R125). -/
theorem State.shiftedReg_toNat (s : State) (sz : OpSize) (type : ShiftType) (rm : RegIdx) (imm6 : BitVec 6) :
    (s.shiftedReg sz type rm imm6).toNat = shiftedVal s sz type rm imm6 := by
  rw [State.shiftedReg, shift, BitVec.setWidth_setWidth_of_le _ (bits_le_register sz), BitVec.setWidth_eq,
    shiftAt_toNat, BitVec.toNat_setWidth]
  rfl

/-- The forms without S write the flags exactly when their destination is index 31 (90_conflicts.md C3). -/
theorem ite_zeroRegClause {α : Type} (rd : RegIdx) (f g : α) :
    (if zeroRegClause rd then f else g) = if rd = zeroReg then f else g := by
  simp only [zeroRegClause, beq_iff_eq]

/-- Settles O28: each instruction ends in `arith` on the register's and the shifted operand's number. -/
theorem addSubRegisterResult : Obligations.AddSubRegisterResult := by
  intro s sz type rm imm6 rn rd
  simp only [← s.xs_toNat_eq_val, ← s.shiftedReg_toNat, ← ite_zeroRegClause]
  exact ⟨writesRegister_of_add _ rfl, writesRegister_of_add true rfl, writesRegister_of_sub _ rfl,
    writesRegister_of_sub true rfl⟩

/-- Settles O29: each instruction ends in `logic` on the operation of the operands, whose number is that of theirs. -/
theorem logicalRegisterResult : Obligations.LogicalRegisterResult := by
  intro s sz type rm imm6 rn rd
  simp only [← s.xs_toNat_eq_val, ← s.shiftedReg_toNat, ← ite_zeroRegClause, ← toNat_not_eq_notMod,
    ← BitVec.toNat_and, ← BitVec.toNat_or, ← BitVec.toNat_xor]
  exact ⟨writesRegister_of_logic _ rfl, writesRegister_of_logic _ rfl, writesRegister_of_logic _ rfl,
    writesRegister_of_logic _ rfl, writesRegister_of_logic _ rfl, writesRegister_of_logic _ rfl,
    writesRegister_of_logic true rfl, writesRegister_of_logic true rfl⟩

/-! ### MOVK -/

/-- Replacing a 16-bit lane: the bits above, the new lane and the bits below, as one number
(42_dp_immediate.md R124). -/
theorem replaceLane_toNat {w k : Nat} (hk : 16 + k ≤ w) (old : BitVec w) (imm16 : BitVec 16) :
    ((old &&& ~~~((0xFFFF#16).setWidth w <<< k)) ||| imm16.setWidth w <<< k).toNat =
      old.toNat / 2 ^ (k + 16) * 2 ^ (k + 16) + imm16.toNat * 2 ^ k + old.toNat % 2 ^ k := by
  have hlane (j : Nat) : (0xFFFF#16).getLsbD j = decide (j < 16) := BitVec.getLsbD_allOnes
  have hsplit : old.toNat / 2 ^ (k + 16) * 2 ^ (k + 16) + imm16.toNat * 2 ^ k + old.toNat % 2 ^ k =
      2 ^ k * (2 ^ 16 * (old.toNat / 2 ^ (k + 16)) + imm16.toNat) + old.toNat % 2 ^ k := by ring
  rw [hsplit]
  apply Nat.eq_of_testBit_eq
  intro j
  rw [Nat.testBit_two_pow_mul_add _ (Nat.mod_lt _ (Nat.two_pow_pos k)), Nat.testBit_two_pow_mul_add _ imm16.isLt,
    Nat.testBit_mod_two_pow, Nat.testBit_div_two_pow]
  simp only [BitVec.testBit_toNat, BitVec.getLsbD_or, BitVec.getLsbD_and, BitVec.getLsbD_not, BitVec.getLsbD_shiftLeft,
    BitVec.getLsbD_setWidth, hlane]
  by_cases hlo : j < k
  · simp [hlo, show j < w by omega]
  · by_cases hmid : j - k < 16
    · simp [hlo, hmid, show j < w by omega, show j - k < w by omega]
    · have habove : imm16.getLsbD (j - k) = false := BitVec.getLsbD_of_ge _ _ (by omega)
      simpa [hlo, hmid, habove, show j - k - 16 + (k + 16) = j by omega] using fun h => BitVec.lt_of_getLsbD h

/-- Settles O27: MOVK `move`s the register with its lane replaced. -/
theorem moveKeepResult : Obligations.MoveKeepResult := by
  intro s sz hw imm16 rd hok
  simp only [← s.xs_toNat_eq_val, ← replaceLane_toNat (lane_le_bits hok)]
  exact writesRegister_of_move rfl

end Sys2Proof.Machine

/-! ## The resolver

The addresses and write-backs of the six modes, as numbers (41_addressing.md R106 to R113). -/

namespace Sys2Proof.Machine

open Sys2Proof.Safety

/-! ### Addresses -/

theorem add_unsignedOffset_toNat (x : Word) (sz : OpSize) (imm12 : BitVec 12) :
    (x + unsignedOffset sz imm12).toNat = (x.toNat + imm12.toNat * sz.bytes) % 2 ^ 64 := by
  rw [BitVec.toNat_add, unsignedOffset_toNat]

theorem add_sext_toNat {n : Nat} (hn : n ≤ 64) (x : Word) (v : BitVec n) :
    (x + sext v).toNat = (x.toNat + sextMod v) % 2 ^ 64 := by
  rw [BitVec.toNat_add, sext_toNat hn]

/-- An address given by a number. -/
theorem eq_ofNat_of_toNat {a : Word} {n : Nat} (h : a.toNat = n % 2 ^ 64) : a = BitVec.ofNat 64 n :=
  BitVec.eq_of_toNat_eq (h.trans (BitVec.toNat_ofNat n 64).symm)

/-! ### Write-backs -/

/-- Writing the base back, in the terms of the claims. -/
theorem State.x_setX_eq_afterWriteBack (s : State) (rn r : RegIdx) (v : Word) :
    (s.setX rn v).x r = afterWriteBack s (some (rn, v)) r :=
  s.x_setX rn r v

/-- Settles O38: the resolver's equations, with each address as a number. -/
theorem resolverAddressesAndWriteBacks : Obligations.ResolverAddressesAndWriteBacks := by
  intro s sz rn rm imm12 simm9 simm19
  refine ⟨?_, ⟨_, rfl, add_unsignedOffset_toNat _ sz imm12⟩, ⟨_, _, rfl, add_sext_toNat (by decide) _ simm9,
    s.setX_eq rn _, fun r => s.x_setX rn r _⟩, ⟨_, rfl, s.setX_eq rn _, fun r => ?_⟩,
    ⟨_, rfl, BitVec.toNat_add _ _⟩, ⟨_, rfl, add_wordOffset_toNat (by decide) s.pc simm19⟩⟩
  · have hzero : unsignedOffset sz 0#12 = 0#64 :=
      BitVec.eq_of_toNat_eq ((unsignedOffset_toNat sz 0#12).trans (Nat.zero_mul _))
    show some (s.x rn, s) = some (s.x rn + unsignedOffset sz 0#12, s)
    rw [hzero, BitVec.add_zero]
  · rw [s.x_setX, apply_ite BitVec.toNat, add_sext_toNat (by decide)]

/-- Settles O39: the resolver has no equation for such a query, and the other branch of a load or store is a
diagnostic. -/
theorem invalidModeRecordsAndDoesNothingElse : Obligations.InvalidModeRecordsAndDoesNothingElse := by
  intro s q rt
  refine ⟨fun hmode hbase => ?_, fun hmode hbase => ?_, fun hnone => ?_⟩
  · rw [← Option.not_isSome_iff_eq_none, s.resolve_isSome_iff]
    simp [hmode, hbase]
  · rw [← Option.not_isSome_iff_eq_none, s.resolve_isSome_iff]
    simp [hmode, hbase]
  · rw [State.load, State.store, hnone, ← s.fetch_eq]
    exact ⟨rfl, rfl⟩

end Sys2Proof.Machine

/-! ## Loads and stores

A load or store whose query the resolver answers, in the shape the claims have (44_load_store.md R145 to R147); each
instruction is then its address and its write-back. -/

namespace Sys2Proof.Machine

open Sys2Proof.Safety

theorem pow_bits_eq (sz : OpSize) : 2 ^ sz.bits = 2 ^ (8 * sz.bytes) := by
  cases sz <;> rfl

/-- The loaded value, as the number of its bytes. -/
theorem readLE_setWidth_toNat (s : State) (a : Nat) (sz : OpSize) :
    ((readLE s.mem a sz.bytes).setWidth sz.bits).toNat = bytesVal s a sz.bytes := by
  have hlt := readLE_lt s.mem a sz.bytes (bytes_le_eight sz)
  rw [← pow_bits_eq] at hlt
  rw [BitVec.toNat_setWidth, Nat.mod_eq_of_lt hlt, readLE_toNat _ _ _ (bytes_le_eight sz), bytesVal]

/-- A load: `rt` wins over the write-back (44_load_store.md R146, R157, R158). -/
theorem loads_of_resolve {i : Instr} {s t : State} {mode : AddrMode} {sz : OpSize} {base : Option RegIdx}
    {offset : Offset} {a : Word} {rt : RegIdx} (wb : WriteBack)
    (he : exec i s = .next (s.load ⟨mode, sz, base, offset⟩ rt)) (hq : s.resolve ⟨mode, sz, base, offset⟩ = some (a, t))
    (hwb : ∀ r, t.x r = afterWriteBack s wb r) : Loads i s sz a wb rt := by
  refine ⟨_, he, ?_⟩
  rcases State.load_cases rt hq with ⟨hin, e⟩ | ⟨hout, e⟩ <;> rw [e]
  · refine ⟨fun r => ?_, ?_, fun _ => rfl, rfl, rfl, rfl, rfl, rfl, rfl⟩
    · rw [if_pos hin, ← readLE_setWidth_toNat, ← hwb]
      exact t.x_wreg_toNat rt r sz _
    · rw [if_pos hin, List.append_nil]
  · have hout' := Nat.not_le.mpr hout
    refine ⟨fun r => ?_, ?_, fun _ => rfl, rfl, rfl, rfl, rfl, rfl, rfl⟩
    · have hzero : ((0#64).setWidth sz.bits).toNat = 0 := BitVec.toNat_setWidth _ _
      rw [if_neg hout', ← hwb]
      exact (t.x_wreg_toNat rt r sz _).trans (by rw [hzero])
    · rw [if_neg hout']

/-- The stored bytes are those of the register, of which the width takes the low ones (44_load_store.md R147). -/
theorem stored_byte_toNat (x : Word) (sz : OpSize) {k : Nat} (hk : k < sz.bytes) :
    (BitVec.ofNat 8 (((x.setWidth sz.bits).setWidth 64).toNat / 2 ^ (8 * k))).toNat = x.toNat / 2 ^ (8 * k) % 256 := by
  have hbits : 2 ^ sz.bits = 2 ^ (8 * k) * (256 * 2 ^ (8 * (sz.bytes - k - 1))) := by
    rw [pow_bits_eq, show (256 : Nat) = 2 ^ 8 from rfl, ← pow_add, ← pow_add]
    congr 1
    omega
  rw [BitVec.toNat_ofNat, BitVec.toNat_setWidth_of_le (bits_le_register sz), BitVec.toNat_setWidth, hbits,
    Nat.mod_mul_right_div_self, show (2 : Nat) ^ 8 = 256 from rfl, Nat.mod_mul_right_mod]

/-- A store: the value is read after the write-back (44_load_store.md R147, R157). -/
theorem stores_of_resolve {i : Instr} {s t : State} {mode : AddrMode} {sz : OpSize} {base : Option RegIdx}
    {offset : Offset} {a : Word} {rt : RegIdx} (wb : WriteBack) (hw : s.mem.wf = true)
    (he : exec i s = .next (s.store ⟨mode, sz, base, offset⟩ rt))
    (hq : s.resolve ⟨mode, sz, base, offset⟩ = some (a, t)) (hwb : ∀ r, t.x r = afterWriteBack s wb r) :
    Stores i s sz a wb rt := by
  refine ⟨_, he, ?_⟩
  rcases State.store_cases rt hq with ⟨hp, e⟩ | ⟨hp, hin, e⟩ | ⟨hp, hout, e⟩ <;> rw [e]
  · have hp' := (isPeriph_iff s a).mp hp
    refine ⟨hwb, rfl, rfl, rfl, rfl, rfl, fun _ => ⟨fun _ => rfl, rfl, ?_⟩, fun h => absurd hp' h,
      fun h => absurd hp' h⟩
    rw [← hwb, ← t.xs_toNat, ← eq_ofNat_of_toNat (BitVec.toNat_setWidth _ _)]
  · refine ⟨hwb, rfl, rfl, rfl, rfl, rfl, fun h => absurd h (not_inPeriph hp), fun _ _ => ⟨fun c => ?_, rfl, rfl⟩,
      fun _ h => absurd hin (Nat.not_le.mpr h)⟩
    rw [read_writeLE hw _ _ _ _ hin, ← hwb, apply_ite BitVec.toNat]
    split
    case isTrue hc => exact stored_byte_toNat (t.x rt) sz (by dsimp only at hc; omega)
    case isFalse => rfl
  · exact ⟨hwb, rfl, rfl, rfl, rfl, rfl, fun h => absurd h (not_inPeriph hp), fun _ h => absurd h (Nat.not_le.mpr hout),
      fun _ _ => ⟨fun _ => rfl, rfl, rfl⟩⟩

/-- Settles O45: the two addresses, without a write-back. -/
theorem loadUnsignedOffsetAndLiteralResult : Obligations.LoadUnsignedOffsetAndLiteralResult := by
  intro s sz imm12 simm19 rn rt
  rw [← eq_ofNat_of_toNat (add_unsignedOffset_toNat (s.x rn) sz imm12),
    ← eq_ofNat_of_toNat (add_wordOffset_toNat (by decide) s.pc simm19)]
  exact ⟨loads_of_resolve none rfl rfl fun _ => rfl, loads_of_resolve none rfl rfl fun _ => rfl⟩

/-- Settles O46: the three addresses, with the write-back of the two indexed modes. -/
theorem loadIndexedAndRegisterOffsetResult : Obligations.LoadIndexedAndRegisterOffsetResult := by
  intro s sz simm9 rm rn rt
  have hsum : (s.x rm + s.x rn).toNat = ((s.x rn).toNat + (s.x rm).toNat) % 2 ^ 64 := by
    rw [BitVec.toNat_add, Nat.add_comm]
  rw [← eq_ofNat_of_toNat (add_sext_toNat (by decide) (s.x rn) simm9), ← eq_ofNat_of_toNat hsum]
  exact ⟨loads_of_resolve (some _) rfl rfl fun r => s.x_setX_eq_afterWriteBack rn r _,
    loads_of_resolve (some _) rfl rfl fun r => s.x_setX_eq_afterWriteBack rn r _,
    loads_of_resolve none rfl rfl fun _ => rfl⟩

/-- Settles O47: no write-back, so the value is the register's own. -/
theorem storeUnsignedAndRegisterOffsetResult : Obligations.StoreUnsignedAndRegisterOffsetResult :=
  fun _ _ _ _ _ _ hw => ⟨stores_of_resolve none hw rfl rfl fun _ => rfl, stores_of_resolve none hw rfl rfl fun _ => rfl⟩

/-- Settles O48: the write-back of both modes, before the value is read. -/
theorem storeIndexedResult : Obligations.StoreIndexedResult :=
  fun s _ _ rn _ hw => ⟨stores_of_resolve (some _) hw rfl rfl fun r => s.x_setX_eq_afterWriteBack rn r _,
    stores_of_resolve (some _) hw rfl rfl fun r => s.x_setX_eq_afterWriteBack rn r _⟩

end Sys2Proof.Machine

/-! ## The register file

Writes of registers commute or overwrite each other, so a register an instruction does not read reaches nothing but
itself, and not even that where the instruction writes it (10_state.md R19 to R22). -/

namespace Sys2Proof.Machine

open Sys2Proof.Safety

/-- Settles O53: the rules of register reads and writes. -/
theorem registerFileReadsAndWrites : Obligations.RegisterFileReadsAndWrites :=
  fun s i r sz v => ⟨s.x_zeroReg, s.x_wreg_toNat i r sz v, s.xs_toNat_eq_val r sz, s.wreg_eq i sz v, s.setX_zeroReg _⟩

theorem State.reset_x (r : RegIdx) : State.reset.x r = 0#64 := by
  rw [State.x]
  split
  · exact Vector.getElem_replicate _
  · rfl

/-- Settles O54: the fields of `State.reset`. -/
theorem resetLeavesTheSpecifiedState : Obligations.ResetLeavesTheSpecifiedState := by
  refine ⟨State.reset_x, rfl, rfl, fun _ => rfl, rfl, rfl, rfl, rfl, rfl, fun a => ?_⟩
  simp [inPeriph, State.reset, Params.default]

/-! ### A write of one register before another operation -/

section SetX

variable (s : State) {r : RegIdx} (v : Word)

/-- Two register writes change nothing but the registers. -/
theorem State.setX_setX_eq (i j : RegIdx) (w : Word) :
    (s.setX i v).setX j w = { s with regs := ((s.setX i v).setX j w).regs } := by
  rw [(s.setX i v).setX_eq j w, s.setX_eq i v]

/-- The second of two writes of a register wins. -/
theorem State.setX_setX_same (w : Word) : (s.setX r v).setX r w = s.setX r w := by
  apply State.ext_x
  · intro q
    simp only [State.x_setX]
    split <;> rfl
  · rw [s.setX_setX_eq]
    exact (s.setX_eq r w).symm

/-- Writes of different registers commute. -/
theorem State.setX_comm {i : RegIdx} (hne : i ≠ r) (w : Word) : (s.setX r v).setX i w = (s.setX i w).setX r v := by
  apply State.ext_x
  · intro q
    simp only [State.x_setX]
    by_cases hq : q = i
    · subst hq
      simp [hne]
    · simp [hq]
  · rw [s.setX_setX_eq v r i w]
    exact (s.setX_setX_eq w i r v).symm

/-- A register write after another one of `r`: it is the only one that counts, or the other one can wait. -/
theorem State.setX_setX (i : RegIdx) (w : Word) :
    (s.setX r v).setX i w = if r = i then s.setX i w else (s.setX i w).setX r v := by
  split
  case isTrue h => exact h ▸ s.setX_setX_same v w
  case isFalse h => exact s.setX_comm v (Ne.symm h) w

theorem State.x_setX_of_ne {q : RegIdx} (hq : q ≠ r) : (s.setX r v).x q = s.x q := by
  rw [s.x_setX, if_neg (fun h => hq h.1)]

theorem State.xs_setX_of_ne {q : RegIdx} (hq : q ≠ r) (sz : OpSize) : (s.setX r v).xs q sz = s.xs q sz := by
  rw [State.xs, s.x_setX_of_ne v hq, State.xs]

theorem State.shiftedReg_setX_of_ne {q : RegIdx} (hq : q ≠ r) (sz : OpSize) (type : ShiftType) (imm6 : BitVec 6) :
    (s.setX r v).shiftedReg sz type q imm6 = s.shiftedReg sz type q imm6 := by
  rw [State.shiftedReg, s.x_setX_of_ne v hq, State.shiftedReg]

/-- An operation that ends in a write of `rd` and commutes with other register writes. -/
theorem State.write_setX (f : State → State) (hf : ∀ (u : State) (w : Word), f (u.setX r w) = (f u).setX r w)
    (rd : RegIdx) (sz : OpSize) (w : BitVec sz.bits) :
    f ((s.setX r v).wreg rd sz w) = if r = rd then f (s.wreg rd sz w) else (f (s.wreg rd sz w)).setX r v := by
  rw [State.wreg, s.setX_setX v rd, apply_ite f, hf]
  rfl

theorem State.setFlags_report_setX (u : State) (f : Flags) (w : Word) :
    ((u.setX r w).setFlags f).report false = ((u.setFlags f).report false).setX r w := by
  rw [State.setX_report, State.setX_setFlags]

theorem State.arith_setX (sz : OpSize) (rd : RegIdx) (a b : BitVec sz.bits) (sub w : Bool) :
    (s.setX r v).arith sz rd a b sub w =
      if r = rd then s.arith sz rd a b sub w else (s.arith sz rd a b sub w).setX r v := by
  cases w with
  | false => exact s.write_setX v (fun u => u.report false) (fun u x => (u.setX_report false r x).symm) rd sz _
  | true =>
    exact s.write_setX v (fun u => (u.setFlags (addSub a b sub).2).report false)
      (fun u => u.setFlags_report_setX (addSub a b sub).2) rd sz _

theorem State.logic_setX (sz : OpSize) (rd : RegIdx) (a : BitVec sz.bits) (w : Bool) :
    (s.setX r v).logic sz rd a w = if r = rd then s.logic sz rd a w else (s.logic sz rd a w).setX r v := by
  cases w with
  | false => exact s.write_setX v (fun u => u.report false) (fun u x => (u.setX_report false r x).symm) rd sz _
  | true =>
    exact s.write_setX v (fun u => (u.setFlags (logicFlags a)).report false)
      (fun u => u.setFlags_report_setX (logicFlags a)) rd sz _

theorem State.move_setX (sz : OpSize) (rd : RegIdx) (a : BitVec sz.bits) :
    (s.setX r v).move sz rd a = if r = rd then s.move sz rd a else (s.move sz rd a).setX r v :=
  s.write_setX v (fun u => u.report false) (fun u x => (u.setX_report false r x).symm) rd sz a

/-! ### Loads and stores -/

/-- The registers a query names: its base and its offset register. -/
def AddrQuery.uses (q : AddrQuery) (r : RegIdx) : Prop :=
  q.base = some r ∨ q.offset = .reg r

/-- A register the query does not name reaches neither the address nor the write-back. -/
theorem State.resolve_setX {q : AddrQuery} (hq : ¬ q.uses r) :
    (s.setX r v).resolve q = (s.resolve q).map fun p => (p.1, p.2.setX r v) := by
  obtain ⟨mode, sz, base, offset⟩ := q
  obtain ⟨hbase, hoffset⟩ := not_or.mp hq
  have hbase' {rn : RegIdx} (h : base = some rn) : rn ≠ r := by
    rintro rfl
    exact hbase h
  have hoffset' {rm : RegIdx} (h : offset = .reg rm) : rm ≠ r := by
    rintro rfl
    exact hoffset h
  rw [State.resolve, State.resolve]
  split
  case h_1 rn _ hb _ =>
    rw [s.x_setX_of_ne v (hbase' hb)]
    rfl
  case h_2 rn _ _ hb _ =>
    rw [s.x_setX_of_ne v (hbase' hb)]
    rfl
  case h_3 rn _ _ hb _ =>
    rw [s.x_setX_of_ne v (hbase' hb), s.setX_comm v (hbase' hb)]
    rfl
  case h_4 rn _ _ hb _ =>
    rw [s.x_setX_of_ne v (hbase' hb), s.setX_comm v (hbase' hb)]
    rfl
  case h_5 rn rm _ hb ho =>
    rw [s.x_setX_of_ne v (hbase' hb), s.x_setX_of_ne v (hoffset' ho)]
    rfl
  case h_6 => rw [s.setX_pc]; rfl
  case h_7 => rfl

/-- Registers and pc are written independently. -/
theorem State.setX_setPcReport (p : Word) (b : Bool) :
    State.setX { s with pc := p, pcWritten := b } r v = { s.setX r v with pc := p, pcWritten := b } := by
  unfold State.setX
  split <;> rfl

theorem State.diag_setX (e : Diag) : (s.setX r v).diag e = (s.diag e).setX r v := by
  unfold State.setX
  split <;> rfl

/-- The loaded register is written last, so it is written over. -/
theorem State.loadXfer_setX (a : Word) (sz : OpSize) (rt : RegIdx) :
    (s.setX r v).loadXfer a sz rt = if r = rt then s.loadXfer a sz rt else (s.loadXfer a sz rt).setX r v := by
  rcases Nat.lt_or_ge Config.memSize (a.toNat + sz.bytes) with hb | hb
  · rw [State.loadXfer_out _ rt hb, State.loadXfer_out _ rt hb, s.diag_setX]
    exact (s.diag _).setX_setX v rt _
  · rw [State.loadXfer_in _ rt hb, State.loadXfer_in _ rt hb, s.setX_mem]
    exact s.setX_setX v rt _

/-- A stored register is read, so only another one can be changed. -/
theorem State.storeXfer_setX (a : Word) (sz : OpSize) {rt : RegIdx} (hrt : rt ≠ r) :
    (s.setX r v).storeXfer a sz rt = (s.storeXfer a sz rt).setX r v := by
  rw [State.storeXfer, State.storeXfer, s.xs_setX_of_ne v hrt, State.storeAccess, State.storeAccess, s.setX_params]
  split
  · unfold State.setX
    split <;> rfl
  · rw [State.memWrite, State.memWrite, s.setX_mem]
    split
    · unfold State.setX
      split <;> rfl
    · exact s.diag_setX v _

theorem State.load_setX {q : AddrQuery} (hq : ¬ q.uses r) (rt : RegIdx) (h : (s.resolve q).isSome = true) :
    (s.setX r v).load q rt = if r = rt then s.load q rt else (s.load q rt).setX r v := by
  obtain ⟨⟨a, t⟩, ht⟩ := Option.isSome_iff_exists.mp h
  have ht' : (s.setX r v).resolve q = some (a, t.setX r v) := by rw [s.resolve_setX v hq, ht]; rfl
  rw [State.load_of_resolve rt ht, State.load_of_resolve rt ht', t.loadXfer_setX, apply_ite (State.report · false),
    State.setX_report]

theorem State.store_setX {q : AddrQuery} (hq : ¬ q.uses r) {rt : RegIdx} (hrt : rt ≠ r)
    (h : (s.resolve q).isSome = true) : (s.setX r v).store q rt = (s.store q rt).setX r v := by
  obtain ⟨⟨a, t⟩, ht⟩ := Option.isSome_iff_exists.mp h
  have ht' : (s.setX r v).resolve q = some (a, t.setX r v) := by rw [s.resolve_setX v hq, ht]; rfl
  rw [State.store_of_resolve rt ht, State.store_of_resolve rt ht', t.storeXfer_setX v a q.sz hrt, State.setX_report]

end SetX

/-! ### Instructions -/

/-- A register an instruction does not read reaches nothing but itself, and not even itself where the instruction writes
it (10_state.md R22). -/
theorem exec_setX {i : Instr} {s t : State} {r : RegIdx} (hr : r ∉ sourceRegs i) (h : exec i s = .next t) (v : Word) :
    exec i (s.setX r v) = .next (if r ∈ destRegs i then t else t.setX r v) := by
  cases i <;> rw [exec] at h <;> cases h
  all_goals simp only [sourceRegs, List.mem_cons, List.not_mem_nil, or_false, not_or] at hr
  case addImm | addsImm | subImm | subsImm =>
    simp only [exec, execAddImm, execAddsImm, execSubImm, execSubsImm, destRegs, List.mem_singleton,
      s.xs_setX_of_ne v (Ne.symm hr), State.arith_setX]
  case addReg | addsReg | subReg | subsReg =>
    obtain ⟨hn, hm⟩ := hr
    simp only [exec, execAddReg, execAddsReg, execSubReg, execSubsReg, destRegs, List.mem_singleton,
      s.xs_setX_of_ne v (Ne.symm hn), s.shiftedReg_setX_of_ne v (Ne.symm hm), State.arith_setX]
  case andReg | bicReg | orrReg | ornReg | eorReg | eonReg | andsReg | bicsReg =>
    obtain ⟨hn, hm⟩ := hr
    simp only [exec, execAndReg, execBicReg, execOrrReg, execOrnReg, execEorReg, execEonReg, execAndsReg, execBicsReg,
      destRegs, List.mem_singleton, s.xs_setX_of_ne v (Ne.symm hn), s.shiftedReg_setX_of_ne v (Ne.symm hm),
      State.logic_setX]
  case movn | movz => simp only [exec, execMovn, execMovz, destRegs, List.mem_singleton, State.move_setX]
  case movk =>
    simp only [exec, execMovk, destRegs, List.mem_singleton, s.xs_setX_of_ne v (Ne.symm hr), State.move_setX]
  case madd | msub =>
    obtain ⟨hn, hm, ha⟩ := hr
    simp only [exec, execMadd, execMsub, destRegs, List.mem_singleton, s.xs_setX_of_ne v (Ne.symm hn),
      s.xs_setX_of_ne v (Ne.symm hm), s.xs_setX_of_ne v (Ne.symm ha), State.move_setX]
  case ldrUnsigned | ldrPre | ldrPost | ldrReg | ldrLit =>
    simp only [destRegs, List.mem_cons, List.not_mem_nil, or_false, hr]
    exact congrArg Host.Outcome.next (s.load_setX v (by simp [AddrQuery.uses, hr, eq_comm]) _ rfl)
  case strUnsigned | strPre | strPost =>
    obtain ⟨hn, ht⟩ := hr
    simp only [destRegs, List.mem_cons, List.not_mem_nil, or_false, hn, if_false]
    exact congrArg Host.Outcome.next (s.store_setX v (by simp [AddrQuery.uses, Ne.symm hn]) (Ne.symm ht) rfl)
  case strReg =>
    obtain ⟨hn, hm, ht⟩ := hr
    exact congrArg Host.Outcome.next
      (s.store_setX v (by simp [AddrQuery.uses, Ne.symm hn, Ne.symm hm]) (Ne.symm ht) rfl)
  case b simm26 =>
    rw [exec_b, s.setX_pc]
    exact congrArg Host.Outcome.next (s.setX_setPcReport v _ true).symm
  case halt => exact congrArg Host.Outcome.next (s.setX_report false r v).symm
  case br rn =>
    rw [exec_br, s.x_setX_of_ne v (Ne.symm hr), s.setX_pc]
    refine congrArg Host.Outcome.next ((s.setX_setPcReport v _ true).symm.trans ?_)
    split <;> rfl
  case bCond simm19 c =>
    simp only [exec, execBCond, s.setX_flags, s.setX_pc]
    refine congrArg Host.Outcome.next ?_
    split
    · exact (s.setX_setPcReport v _ true).symm
    · exact (s.setX_report false r v).symm

/-- A load changes no register but its own after the write-back. -/
theorem State.load_x_of_ne {s t : State} {q : AddrQuery} {a : Word} {r rt : RegIdx} (h : s.resolve q = some (a, t))
    (hrt : r ≠ rt) : (s.load q rt).x r = t.x r := by
  rcases State.load_cases rt h with ⟨_, e⟩ | ⟨_, e⟩ <;> rw [e]
  · exact t.x_setX_of_ne _ hrt
  · exact t.x_setX_of_ne _ hrt

/-- A store changes no register after the write-back. -/
theorem State.store_x {s t : State} {q : AddrQuery} {a : Word} (r rt : RegIdx) (h : s.resolve q = some (a, t)) :
    (s.store q rt).x r = t.x r := by
  rcases State.store_cases rt h with ⟨_, e⟩ | ⟨_, _, e⟩ | ⟨_, _, e⟩ <;> rw [e] <;> rfl

/-- An instruction changes no register but those it is listed to write (10_state.md R22). -/
theorem exec_x_of_not_mem_destRegs {i : Instr} {s t : State} {r : RegIdx} (hr : r ∉ destRegs i)
    (h : exec i s = .next t) : t.x r = s.x r := by
  cases i <;> rw [exec] at h <;> cases h
  all_goals simp only [destRegs, List.mem_cons, List.not_mem_nil, or_false, not_or] at hr
  case addImm | addsImm | subImm | subsImm | addReg | addsReg | subReg | subsReg =>
    rw [State.arith_eq]
    exact s.x_setX_of_ne _ hr
  case andReg | bicReg | orrReg | ornReg | eorReg | eonReg | andsReg | bicsReg =>
    rw [State.logic_eq]
    exact s.x_setX_of_ne _ hr
  case movn | movz | movk | madd | msub =>
    rw [State.move_eq]
    exact s.x_setX_of_ne _ hr
  case ldrUnsigned | ldrReg | ldrLit => exact State.load_x_of_ne rfl hr
  case ldrPre | ldrPost =>
    obtain ⟨hrt, hrn⟩ := hr
    exact (State.load_x_of_ne rfl hrt).trans (s.x_setX_of_ne _ hrn)
  case strUnsigned | strReg => exact State.store_x r _ rfl
  case strPre | strPost => exact (State.store_x r _ rfl).trans (s.x_setX_of_ne _ hr)
  case b | halt => rfl
  case br => split <;> rfl
  case bCond => split <;> rfl

/-- Settles O24: `exec_setX` for what an instruction reads, `exec_x_of_not_mem_destRegs` for what it writes. -/
theorem registersReadAndWrittenAreTheListedOnes : Obligations.RegistersReadAndWrittenAreTheListedOnes := by
  intro i s r v
  obtain ⟨t, ht⟩ := exec_total i s
  obtain ⟨u, hu⟩ := exec_total i (s.setX r v)
  refine ⟨t, u, ht, hu, fun hd => exec_x_of_not_mem_destRegs hd ht, fun hs => ?_⟩
  obtain rfl : u = if r ∈ destRegs i then t else t.setX r v :=
    Host.Outcome.next.inj (hu.symm.trans (exec_setX hs ht v))
  split
  case isTrue => exact ⟨fun _ _ => rfl, rfl, rfl, rfl, rfl, rfl, rfl, rfl, rfl⟩
  case isFalse hd =>
    exact ⟨fun q hq => t.x_setX_of_ne v (hq.resolve_right hd), t.setX_flags r v, t.setX_pc r v, t.setX_pcWritten r v,
      t.setX_mem r v, t.setX_periphEvents r v, t.setX_diagLog r v, t.setX_stop r v, t.setX_params r v⟩

end Sys2Proof.Machine

/-! ## Loads after stores

The value read from bytes that a store wrote, whatever part of them is read (20_memory.md §2, §6). -/

namespace Sys2Proof.Machine

open Sys2Proof.Safety

/-- The little-endian sum of the low bytes of a number is its remainder (20_memory.md R37). -/
theorem sum_bytes_eq_mod (v n : Nat) : ∑ k ∈ Finset.range n, v / 2 ^ (8 * k) % 256 * 2 ^ (8 * k) = v % 2 ^ (8 * n) := by
  induction n with
  | zero => rw [Finset.sum_range_zero, Nat.mul_zero, pow_zero, Nat.mod_one]
  | succ n ih =>
    rw [Finset.sum_range_succ, ih, Nat.mul_succ, pow_add, Nat.mod_mul, Nat.mul_comm (v / 2 ^ (8 * n) % 256)]
    rfl

/-- Reading `n` of the bytes a store wrote, from its `j`-th byte on. -/
theorem readLE_writeLE_toNat {m : Memory} (hw : m.wf = true) {a j n size : Nat} (v : Word)
    (hin : a + size ≤ Config.memSize) (hpart : j + n ≤ size) (hn : n ≤ 8) :
    (readLE (writeLE m a size v) (a + j) n).toNat = v.toNat / 2 ^ (8 * j) % 2 ^ (8 * n) := by
  rw [readLE_toNat _ _ _ hn, ← sum_bytes_eq_mod]
  refine Finset.sum_congr rfl fun k hk => ?_
  have hk' := Finset.mem_range.mp hk
  rw [read_writeLE hw _ _ _ _ hin, if_pos (by omega), BitVec.toNat_ofNat, Nat.div_div_eq_div_mul, ← pow_add,
    show 8 * (a + j + k - a) = 8 * j + 8 * k by omega]

section LoadAfterStore

variable {s : State} {a : Word} {sz : OpSize} (v : Word) (hw : s.mem.wf = true)
  (hin : a.toNat + sz.bytes ≤ Config.memSize)
include hw hin

/-- A load of a part of what was stored, at `b = a + j`. -/
theorem memRead_memWrite_part {b : Word} {sz' : OpSize} {j : Nat} (hb : b.toNat = a.toNat + j)
    (hpart : j + sz'.bytes ≤ sz.bytes) :
    ((s.memWrite a sz v).memRead b sz').1.toNat = v.toNat / 2 ^ (8 * j) % 2 ^ sz'.bits := by
  rw [s.memWrite_in v hin, State.memRead_in _ (by omega), pow_bits_eq, hb]
  exact readLE_writeLE_toNat hw v hin hpart (bytes_le_eight sz')

/-- A load of other bytes. -/
theorem memRead_memWrite_disjoint (b : Word) (sz' : OpSize)
    (hdisj : b.toNat + sz'.bytes ≤ a.toNat ∨ a.toNat + sz.bytes ≤ b.toNat) :
    ((s.memWrite a sz v).memRead b sz').1 = (s.memRead b sz').1 := by
  rw [s.memWrite_in v hin]
  rcases Nat.lt_or_ge Config.memSize (b.toNat + sz'.bytes) with hb | hb
  · rw [State.memRead_out _ hb, State.memRead_out _ hb]
  · rw [State.memRead_in _ hb, State.memRead_in _ hb]
    exact readLE_congr _ _ fun k hk => read_writeLE_outside hw _ _ v hin (by omega)

end LoadAfterStore

/-- Settles O42: the same bytes, other bytes, and the two halves of an 8-byte store. -/
theorem loadReturnsWhatWasStored : Obligations.LoadReturnsWhatWasStored := by
  intro s a b sz sz' v hw hin
  refine ⟨?_, memRead_memWrite_disjoint v hw hin b sz', ?_⟩
  · rw [memRead_memWrite_part v hw hin (Nat.add_zero _).symm (Nat.zero_add _).le, Nat.mul_zero, pow_zero, Nat.div_one]
  · rintro rfl
    have hsmall : a.toNat + 8 ≤ 0x200000 := hin
    have h4 : (a + 4#64).toNat = a.toNat + 4 := by
      rw [BitVec.toNat_add, show (4#64).toNat = 4 from rfl, Nat.mod_eq_of_lt (by omega)]
    constructor
    · rw [memRead_memWrite_part v hw hin (Nat.add_zero _).symm (by decide), Nat.mul_zero, pow_zero, Nat.div_one]
    · rw [memRead_memWrite_part v hw hin h4 (by decide)]
      exact Nat.mod_eq_of_lt (Nat.div_lt_of_lt_mul v.isLt)

/-- Settles O43: a fetch reads the four bytes at pc from memory as it is; an event leaves memory alone. -/
theorem storeIsSeenByTheNextFetch : Obligations.StoreIsSeenByTheNextFetch := by
  intro s a v hw
  constructor
  · intro hplain hin
    have hstore : s.storeAccess a .w v = { s with mem := writeLE s.mem a.toNat 4 v } := by
      rw [State.storeAccess, if_neg (fun hp => hplain ((isPeriph_iff s a).mp hp))]
      exact s.memWrite_in v hin
    rw [hstore, ← State.fetch_eq]
    refine BitVec.eq_of_toNat_eq ?_
    have hread := readLE_writeLE_toNat hw v hin (j := 0) (n := 4) (by decide) (by decide)
    rw [Nat.mul_zero, pow_zero, Nat.div_one] at hread
    rw [State.fetch, BitVec.toNat_setWidth, BitVec.toNat_setWidth]
    exact (congrArg (· % 2 ^ 32) hread).trans (Nat.mod_mod _ _)
  · intro sz p hp
    rw [State.storeAccess, if_pos ((isPeriph_iff s a).mpr hp)]
    exact wordAtPc_congr rfl rfl

/-! ### The image -/

/-- A byte of what was loaded of an image (70_reset_and_hazards.md R196). -/
theorem read_boot (p : Params) (image : List Byte) (a : Nat) :
    (State.boot p image).mem.read a = if a < Config.memSize then image.getD a 0#8 else 0#8 := by
  have hread : (State.boot p image).mem.read a = _ :=
    read_storeBytes State.reset_mem_wf 0 a _ (length_take_image image)
  rw [hread, Nat.zero_add, Nat.sub_zero, List.length_take]
  by_cases hmem : a < Config.memSize
  · rw [if_pos hmem]
    by_cases hlen : a < image.length
    · rw [if_pos ⟨Nat.zero_le a, lt_min hmem hlen⟩, List.getD_eq_getElem?_getD, List.getElem?_take_of_lt hmem,
        ← List.getD_eq_getElem?_getD]
    · rw [if_neg (fun h => hlen (lt_min_iff.mp h.2).2), List.getD_eq_default _ _ (Nat.not_lt.mp hlen)]
      rfl
  · rw [if_neg hmem, if_neg (fun h => hmem (lt_min_iff.mp h.2).1)]
    rfl

/-- Settles O55: `read_boot` for memory; every other field is one of the reset state or of the arguments. -/
theorem bootLoadsTheImage : Obligations.BootLoadsTheImage :=
  fun p image => ⟨read_boot p image, rfl, rfl, State.reset_x, rfl, rfl, rfl, rfl⟩

end Sys2Proof.Machine

/-! ## The final-state dump

The aligned words that hold a listed byte are the non-zero words, and the cells' order is theirs (60_exceptions.md
R192). -/

namespace Sys2Proof.Machine

open Sys2Proof.Safety

/-! ### The addresses of the words -/

/-- A canonical list has its addresses from `lo` on, and the ones after the first from the next address on. -/
theorem cellsWf_cons {lo b : Nat} {u : Byte} {rest : List Host.Cell} (h : cellsWf lo ((b, u) :: rest) = true) :
    lo ≤ b ∧ b < Config.memSize ∧ u ≠ Memory.unlisted ∧ cellsWf (b + 1) rest = true := by
  simp only [cellsWf, Bool.and_eq_true, decide_eq_true_eq, bne_iff_ne, ne_eq] at h
  obtain ⟨⟨⟨hlo, hmem⟩, hu⟩, hrest⟩ := h
  exact ⟨hlo, hmem, hu, hrest⟩

/-- A listed byte is one that reads as something. -/
theorem readCells_ne_unlisted_iff {lo : Nat} {cs : List Host.Cell} (hw : cellsWf lo cs = true) (a : Nat) :
    readCells cs a ≠ Memory.unlisted ↔ ∃ c ∈ cs, c.1 = a := by
  induction cs generalizing lo with
  | nil => simp [readCells]
  | cons d rest ih =>
    obtain ⟨b, u⟩ := d
    obtain ⟨_, _, hu, hrest⟩ := cellsWf_cons hw
    simp only [List.mem_cons, exists_eq_or_imp, ← ih hrest]
    rcases lt_trichotomy a b with h | rfl | h
    · simp [readCells, h, h.ne', readCells_of_lt hrest (show a < b + 1 by omega)]
    · simpa [readCells] using hu
    · simp [readCells, h.not_gt, h.ne, h.ne']

/-- Every listed address is from `lo` on. -/
theorem le_of_mem_cells {lo : Nat} {cs : List Host.Cell} (hw : cellsWf lo cs = true) {c : Host.Cell} (hc : c ∈ cs) :
    lo ≤ c.1 := by
  by_contra hlt
  exact (readCells_ne_unlisted_iff hw c.1).mpr ⟨c, hc, rfl⟩ (readCells_of_lt hw (Nat.not_le.mp hlt))

/-- The word of an address (20_memory.md R36). -/
def wordBase (a : Nat) : Nat :=
  a / 4 * 4

/-- `last` is the word of an address before `lo`. -/
def LastBefore (last : Option Nat) (lo : Nat) : Prop :=
  ∀ l ∈ last, l ≤ wordBase lo

theorem wordBase_mono {a b : Nat} (h : a ≤ b) : wordBase a ≤ wordBase b :=
  Nat.mul_le_mul_right 4 (Nat.div_le_div_right h)

theorem lastBefore_next (b : Nat) : LastBefore (some (wordBase b)) (b + 1) := by
  rintro l ⟨⟩
  exact wordBase_mono (Nat.le_succ b)

theorem wordAddrs_cons (last : Option Nat) (b : Nat) (u : Byte) (rest : List Host.Cell) :
    wordAddrs last ((b, u) :: rest) =
      if last = some (wordBase b) then wordAddrs last rest else wordBase b :: wordAddrs (some (wordBase b)) rest := rfl

/-- The words found are those of the cells but the one found before. -/
theorem mem_wordAddrs_iff {lo : Nat} {last : Option Nat} {cs : List Host.Cell} (hw : cellsWf lo cs = true)
    (hl : LastBefore last lo) (a : Nat) :
    a ∈ wordAddrs last cs ↔ (∃ c ∈ cs, wordBase c.1 = a) ∧ last ≠ some a := by
  induction cs generalizing lo last with
  | nil => simp [wordAddrs]
  | cons d rest ih =>
    obtain ⟨b, u⟩ := d
    obtain ⟨hlo, _, _, hrest⟩ := cellsWf_cons hw
    have hih := ih hrest (lastBefore_next b)
    simp only [wordAddrs_cons, List.mem_cons, exists_eq_or_imp]
    split
    case isTrue h =>
      subst h
      rw [hih]
      exact ⟨fun ⟨hc, hne⟩ => ⟨.inr hc, hne⟩, fun ⟨hc, hne⟩ => ⟨hc.resolve_left (fun e => hne (congrArg some e)), hne⟩⟩
    case isFalse h =>
      rw [List.mem_cons, hih]
      constructor
      · rintro (rfl | ⟨⟨c, hc, rfl⟩, hne⟩)
        · exact ⟨.inl rfl, h⟩
        · refine ⟨.inr ⟨c, hc, rfl⟩, fun hlast => hne (congrArg some ?_)⟩
          have hbefore : wordBase c.1 ≤ wordBase lo := hl _ hlast
          have hafter : wordBase b ≤ wordBase c.1 := wordBase_mono (Nat.le_of_succ_le (le_of_mem_cells hrest hc))
          exact le_antisymm hafter (hbefore.trans (wordBase_mono hlo))
      · rintro ⟨rfl | hc, hne⟩
        · exact .inl rfl
        · by_cases ha : a = wordBase b
          · exact .inl ha
          · exact .inr ⟨hc, fun e => ha (Option.some.inj e).symm⟩

/-- The words found after a word come after it. -/
theorem lt_of_mem_wordAddrs {lo l a : Nat} {cs : List Host.Cell} (hw : cellsWf lo cs = true)
    (hl : LastBefore (some l) lo) (ha : a ∈ wordAddrs (some l) cs) : l < a := by
  obtain ⟨⟨c, hc, rfl⟩, hne⟩ := (mem_wordAddrs_iff hw hl a).mp ha
  have hle : l ≤ wordBase c.1 := (hl l rfl).trans (wordBase_mono (le_of_mem_cells hw hc))
  exact lt_of_le_of_ne hle fun e => hne (congrArg some e)

theorem pairwise_wordAddrs {lo : Nat} {cs : List Host.Cell} (hw : cellsWf lo cs = true) (last : Option Nat) :
    (wordAddrs last cs).Pairwise (· < ·) := by
  induction cs generalizing lo last with
  | nil => exact List.Pairwise.nil
  | cons d rest ih =>
    obtain ⟨b, u⟩ := d
    obtain ⟨_, _, _, hrest⟩ := cellsWf_cons hw
    rw [wordAddrs_cons]
    split
    · exact ih hrest last
    · exact List.Pairwise.cons (fun _ ha => lt_of_mem_wordAddrs hrest (lastBefore_next b) ha) (ih hrest _)

/-! ### The words -/

/-- The word at an address is the number of its four bytes. -/
theorem word_toNat (s : State) (a : Nat) : (s.mem.word a).toNat = bytesVal s a 4 := by
  have hlt : bytesVal s a 4 < 2 ^ 32 := by
    rw [bytesVal, ← readLE_toNat _ _ _ (by decide)]
    exact readLE_lt s.mem a 4 (by decide)
  rw [Memory.word, BitVec.toNat_setWidth, readLE_toNat _ _ _ (by decide)]
  exact Nat.mod_eq_of_lt hlt

theorem bytesVal_ne_zero_iff (s : State) (a n : Nat) :
    bytesVal s a n ≠ 0 ↔ ∃ k < n, s.mem.read (a + k) ≠ Memory.unlisted := by
  have hzero (k : Nat) : (s.mem.read (a + k)).toNat * 2 ^ (8 * k) = 0 ↔ s.mem.read (a + k) = Memory.unlisted := by
    rw [Nat.mul_eq_zero, or_iff_left (Nat.two_pow_pos _).ne', ← BitVec.toNat_inj]
    rfl
  simp [bytesVal, Finset.sum_eq_zero_iff, hzero]

/-- A word holds a listed byte exactly when it is aligned, in memory and not zero. -/
theorem exists_cell_iff {s : State} (hw : s.mem.wf = true) (a : Nat) :
    (∃ c ∈ s.mem.cells, wordBase c.1 = a) ↔ a % 4 = 0 ∧ a < Config.memSize ∧ bytesVal s a 4 ≠ 0 := by
  have hlisted (b : Nat) : s.mem.read b ≠ Memory.unlisted ↔ ∃ c ∈ s.mem.cells, c.1 = b :=
    readCells_ne_unlisted_iff hw b
  rw [bytesVal_ne_zero_iff]
  constructor
  · rintro ⟨c, hc, rfl⟩
    have hread := (hlisted c.1).mpr ⟨c, hc, rfl⟩
    have hmem : c.1 < Config.memSize := by
      by_contra h
      exact hread (Memory.read_of_memSize_le hw (Nat.not_lt.mp h))
    have hsplit : wordBase c.1 + c.1 % 4 = c.1 := Nat.div_add_mod' c.1 4
    exact ⟨Nat.mul_mod_left _ 4, by omega, c.1 % 4, Nat.mod_lt _ (by decide), by rwa [hsplit]⟩
  · rintro ⟨hal, _, k, hk, hread⟩
    obtain ⟨c, hc, hck⟩ := (hlisted (a + k)).mp hread
    exact ⟨c, hc, by rw [wordBase]; omega⟩

theorem mem_nonzeroWords_iff {s : State} (hw : s.mem.wf = true) (a : Nat) (v : InsnWord) :
    (a, v) ∈ s.mem.nonzeroWords ↔ a % 4 = 0 ∧ a < Config.memSize ∧ v ≠ 0#32 ∧ v.toNat = bytesVal s a 4 := by
  have hfound : a ∈ wordAddrs none s.mem.cells ↔ ∃ c ∈ s.mem.cells, wordBase c.1 = a := by
    rw [mem_wordAddrs_iff hw (fun _ h => absurd h (Option.not_mem_none _))]
    simp
  have hv : v = s.mem.word a ↔ v.toNat = bytesVal s a 4 := by rw [← word_toNat, BitVec.toNat_inj]
  have hzero : v ≠ 0#32 ↔ v.toNat ≠ 0 := by rw [Ne, ← BitVec.toNat_inj, BitVec.toNat_zero]
  have hmem : (a, v) ∈ s.mem.nonzeroWords ↔ a ∈ wordAddrs none s.mem.cells ∧ v = s.mem.word a := by
    simp [Memory.nonzeroWords, eq_comm]
  rw [hmem, hfound, exists_cell_iff hw, hv, hzero]
  constructor
  · rintro ⟨⟨hal, hlt, hne⟩, hval⟩
    exact ⟨hal, hlt, hval ▸ hne, hval⟩
  · rintro ⟨hal, hlt, hne, hval⟩
    exact ⟨⟨hal, hlt, hval ▸ hne⟩, hval⟩

/-- The registers X0 to X30, in order. -/
theorem regs_toList (s : State) : s.regs.toList = (List.range 31).map fun k => s.x (BitVec.ofNat 5 k) := by
  apply List.ext_getElem
  · simp
  · intro k hk _
    have hk31 : k < 31 := by simpa using hk
    have hidx : (BitVec.ofNat 5 k).toNat = k := by
      rw [BitVec.toNat_ofNat, Nat.mod_eq_of_lt (by omega)]
    have hx : s.x (BitVec.ofNat 5 k) = s.regs[k] := by simp only [State.x, hidx, hk31, dite_true]
    rw [List.getElem_map, List.getElem_range, hx, Vector.getElem_toList]

/-- Settles O56: the words by membership and order of `wordAddrs`, the registers by `regs_toList`. -/
theorem finalDumpListsExactlyTheNonzeroWords : Obligations.FinalDumpListsExactlyTheNonzeroWords := by
  intro s hw
  exact ⟨mem_nonzeroWords_iff hw, (pairwise_wordAddrs hw none).map _ fun _ _ h => h, regs_toList s, rfl⟩

end Sys2Proof.Machine
